-- ==== Sys2Proof/Word.lean ====
section
/-! DEFINITION. The words of the CORE: the widths of 00_scope.md R7 and 20_memory.md R55. -/

namespace Sys2Proof

/-- A bank word, S, Q, a FIFO cell, a display digit: a natural in 0..15 (R7, R10, R55). -/
abbrev Nibble := BitVec 4

/-- carry, keypad_event, dot, gamma, carry-out: 0 or 1 (R10, R55). -/
abbrev Bit := BitVec 1

/-- A program byte or a keycode (R55). -/
abbrev Byte := BitVec 8

/-- A word of the microinstruction table in its 32-bit container (R8, R55). -/
abbrev MicroWord := BitVec 32

/-- The 28 defined bits of a microinstruction, in the order of 30_encoding.md R81. -/
abbrev Code28 := BitVec 28

end Sys2Proof
end

