-- ==== Sys2Proof/Syntax.lean ====
section
/-! DEFINITION. The micro-operations of 30_encoding.md R102, one constructor per row of the opcode table, and the
names of the other encoded formats (R94, R97). -/

namespace Sys2Proof

/-- A micro-operation: one row of the opcode map (R102), the unit that exec runs (DESIGN CHOICE, log entry 1). None has
an operand field (R90). -/
inductive Instr where
  /-- alpha includes R[i] (R130). -/
  | aR
  /-- alpha includes M[i] (R131). -/
  | aM
  /-- alpha includes ST[i] (R132). -/
  | aST
  /-- alpha includes the complement of R[i] (R133). -/
  | aNR
  /-- alpha includes 10 if carry is clear (R134). -/
  | a10NC
  /-- alpha includes S (R135). -/
  | aS
  /-- alpha includes the constant 4 (R136). -/
  | a4
  /-- beta includes S (R137). -/
  | bS
  /-- beta includes the complement of S (R138). -/
  | bNS
  /-- beta includes Q (R139). -/
  | bQ
  /-- beta includes the constant 6 (R140). -/
  | b6
  /-- beta includes the constant 1 (R141). -/
  | b1
  /-- gamma includes carry (R142). -/
  | gC
  /-- gamma includes the complement of carry (R143). -/
  | gNC
  /-- gamma includes the complement of keypad_event (R144). -/
  | gNK
  /-- RW = 1: R[i] := R[i+3] (R160). -/
  | rwR3
  /-- RW = 2: R[i] := sum (R161). -/
  | rwSum
  /-- RW = 3: R[i] := S (R162). -/
  | rwS
  /-- RW = 4: R[i] := R[i] | S | sum (R163). -/
  | rwRSSum
  /-- RW = 5: R[i] := S | sum (R164). -/
  | rwSSum
  /-- RW = 6: R[i] := R[i] | S (R165). -/
  | rwRS
  /-- RW = 7: R[i] := R[i] | sum (R166). -/
  | rwRSum
  /-- R[i-1] := sum (R167). -/
  | r1Sum
  /-- R[i-2] := sum (R168). -/
  | r2Sum
  /-- M[i] := S (R169). -/
  | mwS
  /-- carry := carry-out of sum (R170). -/
  | cw
  /-- SW = 1: S := Q (R171). -/
  | swQ
  /-- SW = 2: S := sum (R172). -/
  | swSum
  /-- SW = 3: S := Q | sum (R173). -/
  | swQSum
  /-- Q := sum (R174). -/
  | qwSum
  /-- Q := the keypad sample (R175). -/
  | ks
  /-- STW = 1: the ST shift-in (R177). -/
  | stShift
  /-- STW = 2: the ST rotate (R178). -/
  | stRot
  deriving DecidableEq, Repr

/-- The micro-operations in the order of the opcode map (R102), which is the order of the fields of R81. -/
def Instr.all : List Instr :=
  [.aR, .aM, .aST, .aNR, .a10NC, .aS, .a4, .bS, .bNS, .bQ, .b6, .b1, .gC, .gNC, .gNK,
    .rwR3, .rwSum, .rwS, .rwRSSum, .rwSSum, .rwRS, .rwRSum, .r1Sum, .r2Sum, .mwS, .cw,
    .swQ, .swSum, .swQSum, .qwSum, .ks, .stShift, .stRot]

/-- A microinstruction: the micro-operations that its word selects, all applied in the same tick (R85).
The empty list is NOP (R86). -/
abbrev Micro := List Instr

/-- The fields of a microinstruction word (R81). -/
inductive Field where
  | aR | aM | aST | aNR | a10NC | aS | a4 | bS | bNS | bQ | b6 | b1 | gC | gNC | gNK
  | rw | r1 | r2 | mw | cw | sw | qw | ks | stw
  deriving DecidableEq, Repr

/-- The angular mode, three values without a numeric encoding (R97). -/
inductive AngularMode where
  | radians | degrees | grads
  deriving DecidableEq, Repr, Inhabited

/-- The 30 keys of the keycode table (R94). -/
inductive Key where
  | k0 | k1 | k2 | k3 | k4 | k5 | k6 | k7 | k8 | k9
  | add | sub | mul | div | xy | dot | neg | exp | clear | enter
  | stopGo | goto | ret | call | store | next | load | prev | keyK | keyF
  deriving DecidableEq, Repr

/-- What a display digit code shows (R95). -/
inductive Glyph where
  | numeral (n : Nat) | minus | letterL | letterC | letterR | letterE | blank
  deriving DecidableEq, Repr

end Sys2Proof
end

