-- ==== Sys2Proof/Config.lean ====
section
/-! DEFINITION. The configuration parameters of 00_scope.md R9, as plain data, and the free values that stand for
those the spec leaves OPEN. The free values that are functions of the CORE's state stand in Machine/Params.lean,
after that state. -/

namespace Sys2Proof

/-- The program store's cells: address and byte, addresses strictly rising, no entry that reads 0 (R39). -/
abbrev Memory := List Host.Cell

/-- The build variant, which fixes PROG_LEN (R4). -/
inductive Variant where
  | slots98 | slots105
  deriving DecidableEq, Repr, Inhabited

/-- PROG_LEN of a variant (R4, R7). -/
def Variant.progLen : Variant → Nat
  | .slots98 => 98
  | .slots105 => 105

/-- ADDER_MODE (R9, R148). -/
inductive AdderMode where
  | decimal | binary4
  deriving DecidableEq, Repr

/-- FIFO_LINK (R9, R193). -/
inductive FifoLink where
  | ring | detached
  deriving DecidableEq, Repr

/-- UCODE_LAYOUT (R91): the layout of R81, or another map from the fields to bit positions. Such a map gives, for
each of the 28 bits of R81 in the order of R81, the position of the 32-bit container that holds it; a field of several
bits is the run of its bits (DESIGN CHOICE, log entry 12). -/
inductive Layout where
  | standard
  | custom (pos : Vector (Fin 32) 28)
  deriving DecidableEq, Repr

/-- A layout names 28 different positions, so that no two fields share a bit (R91). -/
def Layout.WellFormed : Layout → Bool
  | .standard => true
  | .custom pos => decide pos.toList.Nodup

/-- A selection function or other function parameter of R9 written as DATA over what that parameter may read, for a
host that supplies one (R252). It is the model's own notation (DESIGN CHOICE, log entry 4): the parameters stay
OPEN, and a function that cannot be written so is reached through the free form. -/
inductive Expr where
  /-- A constant. -/
  | lit (n : Nat)
  /-- The macro word handed to the parameter. -/
  | macroWord
  /-- The keycode handed to the parameter. -/
  | key
  /-- The k-th program byte, from 0, that MACRO_SELECT has read so far; 0 where there is none. -/
  | byte (k : Nat)
  /-- The window offset i. -/
  | window
  /-- The display slot. -/
  | slot
  | regS
  | regQ
  | carry
  /-- A word of a bank, its index taken modulo 42 (R12). -/
  | bankR (j : Expr)
  | bankM (j : Expr)
  | bankST (j : Expr)
  /-- A latch of show_dot, its index taken modulo 14. -/
  | showDot (k : Expr)
  | add (a b : Expr)
  | mul (a b : Expr)
  /-- Natural-number quotient and remainder (R11). -/
  | div (a b : Expr)
  | mod (a b : Expr)
  /-- 1 if equal, else 0. -/
  | equal (a b : Expr)
  /-- A choice by the angular mode handed to the parameter (R97). -/
  | byMode (radians degrees grads : Expr)
  deriving DecidableEq, Repr

/-- A function parameter of R9: OPEN, its value the opaque function of Machine/Params.lean, or given as data. -/
inductive Param where
  | free
  | given (e : Expr)
  deriving DecidableEq, Repr

/-- MACRO_SELECT (R9, R111): OPEN, or given as the addresses of its program-byte reads in their order (R224) and the
index that it answers after them; an address may use the bytes read before it, and the index all of them. -/
inductive MacroParam where
  | free
  | given (reads : List Expr) (index : Expr)
  deriving DecidableEq, Repr

/-- DISPLAY_VALUE (R9, R201): OPEN, or given as a digit and a dot. -/
inductive DisplayParam where
  | free
  | given (digit dot : Expr)
  deriving DecidableEq, Repr

/-- The configuration (R9). It is no state of the CORE (R40): State carries it as data that no tick writes, because
the word that a test places must stand where the tick fetches (DESIGN CHOICE, log entry 2). N_CMD and N_UROM are the lengths. -/
structure Cfg where
  variant      : Variant
  cmdWordBits  : Nat
  cmdRom       : List Nat
  urom         : List MicroWord
  layout       : Layout
  macroSelect  : MacroParam
  microSelect  : Param
  keyEvent     : Param
  keyQ         : Param
  displayValue : DisplayParam
  running      : Param
  fifoLink     : FifoLink
  adderMode    : AdderMode
  progInit     : Memory
  deriving DecidableEq, Repr

/-- PROG_LEN (R9). -/
def Cfg.progLen (g : Cfg) : Nat := g.variant.progLen

/-- VARIANT has no default (R9): a free value (log entry 3, as are those that follow). -/
opaque Config.variant : Variant

/-- CMD_WORD_BITS - 1: CMD_WORD_BITS is a natural above 0 and OPEN (R9). -/
opaque Config.cmdWordBitsPred : Nat

/-- Word 0 of CMD_ROM: N_CMD is above 0 (R9). -/
opaque Config.cmdWord0 : Nat

/-- The other words of CMD_ROM (R9). -/
opaque Config.cmdWords : List Nat

/-- Word 0 of UROM: N_UROM is above 0 (R9). -/
opaque Config.uWord0 : MicroWord

/-- The other words of UROM (R9). -/
opaque Config.uWords : List MicroWord

/-- The configuration before a host supplies another: every default of R9, and a free value for everything R9 leaves
OPEN. A macro word keeps the CMD_WORD_BITS bits that it has. -/
def Config.initial : Cfg where
  variant := Config.variant
  cmdWordBits := Config.cmdWordBitsPred + 1
  cmdRom := (Config.cmdWord0 :: Config.cmdWords).map (· % 2 ^ (Config.cmdWordBitsPred + 1))
  urom := Config.uWord0 :: Config.uWords
  layout := .standard
  macroSelect := .free
  microSelect := .free
  keyEvent := .free
  keyQ := .free
  displayValue := .free
  running := .free
  fifoLink := .ring
  adderMode := .decimal
  progInit := []

end Sys2Proof
end

