-- ==== Sys2Proof/Machine/State.lean ====
section
/-! DEFINITION. The state of the CORE (10_state.md R20-R41), the fault causes (60_exceptions.md R220), the host's
operations and what they return (44_display_keys.md R211), and the state after reset (70_reset_and_hazards.md R250). -/

namespace Sys2Proof.Machine

/-- The fault causes of R220, each with the info that its `raise` passes. Taking one is described by R222 as a state
that the machine reaches, so a step answers it as a NEXT state whose fault register holds it (DESIGN CHOICE, log entry 6); no step
answers Outcome.fault. Safe: the faulted state is stuck until calc_init (R114). -/
inductive Fault where
  /-- Code 1, a program-store read at an address not below PROG_LEN; raised by MemRead inside MACRO_SELECT (R65). Safe. -/
  | progAddr (a : Nat)
  /-- Code 2, a command-table index not below N_CMD; raised by FetchMacro (R111). Safe. -/
  | macroAddr (aki : Nat)
  /-- Code 3, a microinstruction index not below N_UROM; raised by FetchMicro (R112). Safe. -/
  | microAddr (ua : Nat)
  /-- Code 4, a reserved bit set or STW = 3; raised by Decode (R87, R88). Safe. -/
  | reservedField (ua : Nat)
  /-- Code 5, under DECIMAL a t of 20 or more in a tick that consumes sum or cout; raised by Add (R149, R151). Safe. -/
  | aluRange (t : Nat)
  deriving DecidableEq, Repr

/-- Reasons to refuse an instruction. -/
inductive Refusal where
  /-- Raised by an arm of exec whose instruction has no meaning yet; no arm is left that raises it. Safe. -/
  | notModelled (mnemonic : String)
  deriving DecidableEq, Repr

/-- What the fault register holds: the cause with its info, and the window offset and slot of the faulting tick,
which R222 appends to the info. -/
structure FaultRecord where
  cause  : Fault
  window : Fin 42
  slot   : Fin 14
  deriving DecidableEq, Repr

/-- The CORE's state but the program store: what the parameters of R9 may read as `s` (R20-R38). -/
structure Chip where
  /-- Bank R (R20). -/
  r : Vector Nibble 42
  /-- Bank M (R21). -/
  m : Vector Nibble 42
  /-- Bank ST (R22). -/
  st : Vector Nibble 42
  /-- The window offset (R25). -/
  i : Fin 42
  /-- S (R26). -/
  sReg : Nibble
  /-- Q (R27). -/
  qReg : Nibble
  /-- carry (R28). -/
  carry : Bit
  /-- keypad_event, for observation (R29). -/
  keypadEvent : Bit
  /-- AK, the macro word of the period (R30). -/
  ak : Nat
  /-- AKI, its index (R30). -/
  aki : Nat
  /-- U, the microinstruction word of the last tick (R31). -/
  u : MicroWord
  /-- UA, its index (R31). -/
  ua : Nat
  /-- dot (R32). -/
  dot : Bit
  /-- show_dot (R33). -/
  showDot : Vector Bit 14
  /-- slot (R34). -/
  slot : Fin 14
  /-- The fault register (R35). -/
  fault : Option FaultRecord
  /-- FIFO data (R36). -/
  fifoData : Vector Nibble 252
  /-- FIFO cycle (R37). -/
  fifoCycle : Fin 252
  /-- FIFO input and output (R38). -/
  fifoInput : Nibble
  fifoOutput : Nibble
  deriving DecidableEq, Repr

/-- The values of the tick in progress (R110): the three terms, the adder's outputs, and what the host's inputs of
this tick came to. They carry nothing from tick to tick (R41): every tick sets them anew, and they are idle between
ticks (DESIGN CHOICE, log entry 7). -/
structure Bus where
  alpha : Nibble
  beta : Nibble
  gamma : Bit
  sum : Nibble
  cout : Bit
  /-- `ke`, computed once per tick (R117). -/
  ke : Bit
  /-- KEY_Q(key, mode, s) of this tick, what a keypad sample latches (R175, R208). -/
  keyQ : Nibble
  deriving DecidableEq, Repr

/-- No tick in progress. -/
def Bus.idle : Bus where
  alpha := 0
  beta := 0
  gamma := 0
  sum := 0
  cout := 0
  ke := 0
  keyQ := 0

/-- A display event (R201): index -1 or 0..11 (R96), digit code (R95), dot. -/
structure Event where
  index : Int
  digit : Nibble
  dot   : Bit
  deriving DecidableEq, Repr

/-- The status of a tick (R110, R120): OK with the running flag, or FAULTED with the recorded fault. -/
inductive Status where
  | ok (running : Bool)
  | faulted (f : FaultRecord)
  deriving DecidableEq, Repr

/-- The host's operations (R211). -/
inductive HostOp where
  /-- calc_init, with a program or with none. -/
  | init (prog : Option (List Byte))
  /-- calc_step with the tick's keycode and mode. -/
  | tick (key : Byte) (mode : AngularMode)
  | load (prog : List Byte)
  | dump
  deriving DecidableEq, Repr

/-- What the host gets back (R211). -/
inductive Result where
  /-- No operation has run yet. -/
  | nothing
  | initDone
  /-- calc_init with a program of the wrong length (R250). -/
  | initRefused
  /-- The tick's events, at most one (R203), and its status. -/
  | ticked (events : List Event) (status : Status)
  | loaded
  /-- load of an array of the wrong length (R62). -/
  | loadRefused
  | dumped (bytes : List Byte)
  deriving DecidableEq, Repr

/-- The whole machine: the CORE, the program store (R39), the configuration it runs under (R9, R40), the values of
the tick in progress, the host's operations to come, oldest first, and what the last one returned (DESIGN CHOICE, log
entries 2, 7 and 8). -/
structure State where
  chip    : Chip
  prog    : Memory
  cfg     : Cfg
  bus     : Bus
  pending : List HostOp
  out     : Result
  deriving DecidableEq, Repr

/-- Every element of the CORE after calc_init (R250). -/
def Chip.reset : Chip where
  r := Vector.replicate 42 0
  m := Vector.replicate 42 0
  st := Vector.replicate 42 0
  i := 0
  sReg := 0
  qReg := 0
  carry := 0
  keypadEvent := 0
  ak := 0
  aki := 0
  u := 0
  ua := 0
  dot := 0
  showDot := Vector.replicate 14 0
  slot := 0
  fault := none
  fifoData := Vector.replicate 252 0
  fifoCycle := 0
  fifoInput := 0
  fifoOutput := 0

/-- The machine after calc_init without a program under the initial configuration, with no host operation to come:
the program store holds PROG_INIT, all zero by default, so no cell is listed (R250). -/
def State.reset : State where
  chip := Chip.reset
  prog := Config.initial.progInit
  cfg := Config.initial
  bus := Bus.idle
  pending := []
  out := .nothing

end Sys2Proof.Machine
end

