-- ==== Sys2Proof/Machine/Params.lean ====
section
/-! DEFINITION. The function parameters of 00_scope.md R9: the free values that stand for the OPEN ones, the
evaluation of those given as data, and the constraints that R207 and R208 set on them. -/

namespace Sys2Proof

/-- What MACRO_SELECT does (R111): answer an index, or read a program byte through MemRead and go on with it. The
order of its reads is part of the parameter (R224). -/
inductive Select where
  | done (index : Nat)
  | read (a : Nat) (k : Byte → Select)
  deriving Inhabited

/-- MACRO_SELECT(s, MemRead), OPEN (R9, R111). -/
opaque Config.macroSelect : Machine.Chip → Select

/-- MICRO_SELECT(ak, i, s), OPEN (R9, R112). -/
opaque Config.microSelect : Nat → Fin 42 → Machine.Chip → Nat

/-- KEY_EVENT(key, s) for a key that is not 0, OPEN (R9, R207). -/
opaque Config.keyEvent : Byte → Machine.Chip → Bit

/-- KEY_Q(0, mode, s), the 'no key' value, OPEN (R9, R175). -/
opaque Config.keyNone : AngularMode → Machine.Chip → Nibble

/-- How far KEY_Q of a key of the table lies from the 'no key' value, less one, OPEN (R208). -/
opaque Config.keyOffset : Byte → AngularMode → Machine.Chip → Fin 15

/-- KEY_Q for a keycode outside the table, OPEN (R94, R208). -/
opaque Config.keyOther : Byte → AngularMode → Machine.Chip → Nibble

/-- DISPLAY_VALUE(s, ak, slot), OPEN (R9, R201). -/
opaque Config.displayValue : Machine.Chip → Nat → Fin 14 → Nibble × Bit

/-- RUNNING(s), OPEN (R9, R210). -/
opaque Config.running : Machine.Chip → Bool

namespace Machine

/-- The keycode of a key: low nibble the column group, high nibble the row (R94). -/
def keycode : Key → Byte
  | .k0 => 0x21 | .k1 => 0x31 | .k2 => 0x41 | .k3 => 0x51 | .k4 => 0x61
  | .k5 => 0x71 | .k6 => 0x81 | .k7 => 0x91 | .k8 => 0xA1 | .k9 => 0xB1
  | .add => 0x28 | .sub => 0x38 | .mul => 0x48 | .div => 0x58 | .xy => 0x68
  | .dot => 0x78 | .neg => 0x88 | .exp => 0x98 | .clear => 0xA8 | .enter => 0xB8
  | .stopGo => 0x29 | .goto => 0x39 | .ret => 0x49 | .call => 0x59 | .store => 0x69
  | .next => 0x79 | .load => 0x89 | .prev => 0x99 | .keyK => 0xA9 | .keyF => 0xB9

/-- The 30 keycodes of the table: rows 2..11, column groups 1, 8 and 9 (R94). -/
def isKeycode (b : Byte) : Bool :=
  let row := b.toNat / 16
  let column := b.toNat % 16
  2 ≤ row && row ≤ 11 && (column == 1 || column == 8 || column == 9)

/-- What a parameter given as data reads: the state, and the arguments that R9 hands to it besides; for MACRO_SELECT
the program bytes that it has read so far, in their order. -/
structure Args where
  chip : Chip
  macroWord : Nat
  key : Byte
  mode : AngularMode
  bytes : List Byte

/-- The value of a parameter given as data; a Boolean is 0 or 1 (DESIGN CHOICE, log entry 13). -/
def Expr.eval (a : Args) : Expr → Nat
  | .lit n => n
  | .macroWord => a.macroWord
  | .key => a.key.toNat
  | .byte k => (a.bytes.getD k 0).toNat
  | .window => a.chip.i.val
  | .slot => a.chip.slot.val
  | .regS => a.chip.sReg.toNat
  | .regQ => a.chip.qReg.toNat
  | .carry => a.chip.carry.toNat
  | .bankR j => (a.chip.r.get (Fin.ofNat 42 (Expr.eval a j))).toNat
  | .bankM j => (a.chip.m.get (Fin.ofNat 42 (Expr.eval a j))).toNat
  | .bankST j => (a.chip.st.get (Fin.ofNat 42 (Expr.eval a j))).toNat
  | .showDot k => (a.chip.showDot.get (Fin.ofNat 14 (Expr.eval a k))).toNat
  | .add x y => Expr.eval a x + Expr.eval a y
  | .mul x y => Expr.eval a x * Expr.eval a y
  | .div x y => Expr.eval a x / Expr.eval a y
  | .mod x y => Expr.eval a x % Expr.eval a y
  | .equal x y => if Expr.eval a x = Expr.eval a y then 1 else 0
  | .byMode r d g =>
    match a.mode with
    | .radians => Expr.eval a r
    | .degrees => Expr.eval a d
    | .grads => Expr.eval a g

/-- A bit from a value given as data. -/
def bitOf (n : Nat) : Bit := if n = 0 then 0 else 1

/-- The arguments of a parameter that is handed neither a keycode nor a mode. -/
def Args.ofChip (c : Chip) (macroWord : Nat) : Args where
  chip := c
  macroWord := macroWord
  key := 0
  mode := .radians
  bytes := []

/-- MACRO_SELECT given as data: the reads in their order, then the index (R111, R224). -/
def selectGiven (index : Expr) : List Expr → Args → Select
  | [], a => .done (Expr.eval a index)
  | e :: reads, a => .read (Expr.eval a e) fun b => selectGiven index reads { a with bytes := a.bytes ++ [b] }

/-- MACRO_SELECT under a configuration (R111). -/
def macroSelect (g : Cfg) (c : Chip) : Select :=
  match g.macroSelect with
  | .free => Config.macroSelect c
  | .given reads index => selectGiven index reads (Args.ofChip c c.ak)

/-- MICRO_SELECT(ak, i, s) under a configuration (R112). -/
def microSelect (g : Cfg) (ak : Nat) (c : Chip) : Nat :=
  match g.microSelect with
  | .free => Config.microSelect ak c.i c
  | .given e => Expr.eval (Args.ofChip c ak) e

/-- KEY_EVENT(key, s), which is 0 for no key (R207; DEDUCED, log entry 5). -/
def keyEvent (g : Cfg) (key : Byte) (c : Chip) : Bit :=
  if key = 0 then 0
  else match g.keyEvent with
    | .free => Config.keyEvent key c
    | .given e => bitOf (Expr.eval { Args.ofChip c c.ak with key := key } e)

/-- KEY_Q when OPEN: any function that gives each key of the table a value other than the 'no key' value
(R208; DEDUCED, log entry 5). -/
def freeKeyQ (key : Byte) (mode : AngularMode) (c : Chip) : Nibble :=
  if key = 0 then Config.keyNone mode c
  else if isKeycode key then
    BitVec.ofNat 4 ((Config.keyNone mode c).toNat + 1 + (Config.keyOffset key mode c).val)
  else Config.keyOther key mode c

/-- KEY_Q(key, mode, s) under a configuration (R175, R208). -/
def keyQ (g : Cfg) (key : Byte) (mode : AngularMode) (c : Chip) : Nibble :=
  match g.keyQ with
  | .free => freeKeyQ key mode c
  | .given e => BitVec.ofNat 4 (Expr.eval { Args.ofChip c c.ak with key := key, mode := mode } e)

/-- DISPLAY_VALUE(s, ak, slot) at the state's slot, under a configuration (R201). -/
def displayValue (g : Cfg) (c : Chip) (ak : Nat) : Nibble × Bit :=
  match g.displayValue with
  | .free => Config.displayValue c ak c.slot
  | .given digit dot =>
    (BitVec.ofNat 4 (Expr.eval (Args.ofChip c ak) digit), bitOf (Expr.eval (Args.ofChip c ak) dot))

/-- RUNNING(s) under a configuration (R210). -/
def running (g : Cfg) (c : Chip) : Bool :=
  match g.running with
  | .free => Config.running c
  | .given e => decide (Expr.eval (Args.ofChip c c.ak) e ≠ 0)

end Machine

end Sys2Proof
end

