-- ==== Sys2Proof/Machine/Ops.lean ====
section
/-! DEFINITION. The named operations over the program store, the banks and the scalar registers (20_memory.md,
10_state.md), taking a fault (60_exceptions.md R222), and calc_init, the one way out of it (R223, R250). -/

namespace Sys2Proof.Machine

/-- The byte at an address; an unlisted address reads 0, as the default PROG_INIT has it (R39, DESIGN CHOICE, log entry 11). -/
def Memory.read : Memory → Nat → Byte
  | [], _ => 0
  | (k, v) :: m, a => if k = a then v else Memory.read m a

/-- MemWrite(a, 1, v) (R62); the list stays sorted, and a byte 0 leaves no entry. -/
def Memory.write : Memory → Nat → Byte → Memory
  | [], a, v => if v = 0 then [] else [(a, v)]
  | (k, x) :: m, a, v =>
    if a < k then (if v = 0 then (k, x) :: m else (a, v) :: (k, x) :: m)
    else if a = k then (if v = 0 then m else (k, v) :: m)
    else (k, x) :: Memory.write m a v

/-- The canonical form: addresses strictly rising, and no entry holds what an unlisted address reads. -/
abbrev Memory.wf (m : Memory) : Prop :=
  m.Pairwise (fun x y => x.1 < y.1) ∧ ∀ x ∈ m, x.2 ≠ 0

/-- Every listed address is below a bound. -/
abbrev Memory.below (m : Memory) (n : Nat) : Prop := ∀ x ∈ m, x.1 < n

/-- Writing an array of bytes at rising addresses, the first at `a` (R62). -/
def Memory.writeFrom (m : Memory) (a : Nat) : List Byte → Memory
  | [] => m
  | b :: bs => Memory.writeFrom (Memory.write m a b) (a + 1) bs

/-- The first `n` bytes in index order (R63). -/
def Memory.bytes (m : Memory) (n : Nat) : List Byte := (List.range n).map (Memory.read m)

/-- MemRead(a, 1): the byte, or Fault(ProgAddr, a) at an address not below PROG_LEN (R65). -/
def memRead (progLen : Nat) (m : Memory) (a : Nat) : Except Fault Byte :=
  if a < progLen then .ok (Memory.read m a) else .error (.progAddr a)

/-- R[j] := v (R13). -/
def Chip.writeR (c : Chip) (j : Fin 42) (v : Nibble) : Chip := { c with r := c.r.set j.val v j.isLt }

/-- M[j] := v (R13). -/
def Chip.writeM (c : Chip) (j : Fin 42) (v : Nibble) : Chip := { c with m := c.m.set j.val v j.isLt }

/-- ST[j] := v (R13). -/
def Chip.writeST (c : Chip) (j : Fin 42) (v : Nibble) : Chip := { c with st := c.st.set j.val v j.isLt }

/-- S := v (R26). -/
def Chip.setS (c : Chip) (v : Nibble) : Chip := { c with sReg := v }

/-- Q := v (R27). -/
def Chip.setQ (c : Chip) (v : Nibble) : Chip := { c with qReg := v }

/-- carry := b (R28). -/
def Chip.setCarry (c : Chip) (b : Bit) : Chip := { c with carry := b }

/-- The state with another CORE. -/
def State.withChip (s : State) (c : Chip) : State := { s with chip := c }

/-- The state with other values of the tick in progress. -/
def State.withBus (s : State) (b : Bus) : State := { s with bus := b }

/-- The state with another program store. -/
def State.withProg (s : State) (m : Memory) : State := { s with prog := m }

/-- The state with another result for the host. -/
def State.withOut (s : State) (o : Result) : State := { s with out := o }

/-- The state with other host operations to come. -/
def State.withPending (s : State) (ops : List HostOp) : State := { s with pending := ops }

/-- The numeric code of a fault (R220). -/
def Fault.code : Fault → Nat
  | .progAddr _ => 1
  | .macroAddr _ => 2
  | .microAddr _ => 3
  | .reservedField _ => 4
  | .aluRange _ => 5

/-- The value that a fault's `raise` passes (R220). -/
def Fault.info : Fault → Nat
  | .progAddr a => a
  | .macroAddr aki => aki
  | .microAddr ua => ua
  | .reservedField ua => ua
  | .aluRange t => t

/-- The recorded info: the passed value, then the window offset and the slot (R222). -/
def FaultRecord.info (f : FaultRecord) : List Nat := [f.cause.info, f.window.val, f.slot.val]

/-- What a fault raised now records (R222). -/
def State.recordOf (s : State) (f : Fault) : FaultRecord where
  cause := f
  window := s.chip.i
  slot := s.chip.slot

/-- Fault entry (R222): the fault register takes the record, the tick emits nothing and answers FAULTED, and
nothing else changes. It is reached only before any write of the tick (R221). -/
def State.takeFault (s : State) (f : Fault) : State :=
  ((s.withChip { s.chip with fault := some (s.recordOf f) }).withBus Bus.idle).withOut
    (.ticked [] (.faulted (s.recordOf f)))

/-- calc_init on a program store already formed (R250): every element of the CORE at its reset value, the fault
cleared (R223), the configuration untouched (R251). -/
def State.initialised (s : State) (m : Memory) : State :=
  (((s.withChip Chip.reset).withProg m).withBus Bus.idle).withOut .initDone

end Sys2Proof.Machine
end

