-- ==== Sys2Proof/Machine/Operands.lean ====
section
/-! DEFINITION. The operand forms of a micro-operation (30_encoding.md R90, indices as 00_scope.md R12 takes them),
the complements (R11), and how a source joins its term (41_alu_terms.md R145-R147). -/

namespace Sys2Proof.Machine

/-- R[i] (R90). -/
def Chip.ri (c : Chip) : Nibble := c.r.get c.i

/-- R[i+3], the index modulo 42 (R12, R160). -/
def Chip.ri3 (c : Chip) : Nibble := c.r.get (c.i + 3)

/-- M[i] (R90). -/
def Chip.mi (c : Chip) : Nibble := c.m.get c.i

/-- ST[i] (R90). -/
def Chip.sti (c : Chip) : Nibble := c.st.get c.i

/-- ST[i+1], the index modulo 42 (R12). -/
def Chip.sti1 (c : Chip) : Nibble := c.st.get (c.i + 1)

/-- ST[i+2], the index modulo 42 (R12). -/
def Chip.sti2 (c : Chip) : Nibble := c.st.get (c.i + 2)

/-- The complement of a nibble, 15 - x (R11). -/
def complement4 (x : Nibble) : Nibble := BitVec.ofNat 4 (15 - x.toNat)

/-- The complement of a bit, 1 - b (R11). -/
def complement1 (b : Bit) : Bit := BitVec.ofNat 1 (1 - b.toNat)

/-- What A_10NC contributes: 10 if carry is clear, else nothing (R134). -/
def tenIfClear (carry : Bit) : Nibble := if carry = 0 then 10 else 0

/-- ORs a contribution into alpha (R145). -/
def State.orAlpha (s : State) (v : Nibble) : State := s.withBus { s.bus with alpha := s.bus.alpha ||| v }

/-- ORs a contribution into beta (R146). -/
def State.orBeta (s : State) (v : Nibble) : State := s.withBus { s.bus with beta := s.bus.beta ||| v }

/-- ORs a contribution into gamma (R147). -/
def State.orGamma (s : State) (b : Bit) : State := s.withBus { s.bus with gamma := s.bus.gamma ||| b }

end Sys2Proof.Machine
end

