-- ==== Sys2Proof/Machine/Flags.lean ====
section
/-! DEFINITION. The adder and its carry-out, and which micro-operations consume them: 41_alu_terms.md R148-R151. -/

namespace Sys2Proof.Machine

/-- t = alpha + beta + gamma, a natural with no wrap-around (R11, R148). -/
def Bus.total (b : Bus) : Nat := b.alpha.toNat + b.beta.toNat + b.gamma.toNat

/-- AddDec(t) for a tick that consumes sum or cout, or does not (R149). -/
def addDec (consumed : Bool) (t : Nat) : Except Fault (Nibble × Bit) :=
  if t ≤ 19 then .ok (BitVec.ofNat 4 (t % 10), BitVec.ofNat 1 (t / 10))
  else if consumed then .error (.aluRange t)
  else .ok (BitVec.ofNat 4 (t % 10), 1)

/-- AddBin4(t) (R150). -/
def addBin4 (t : Nat) : Nibble × Bit := (BitVec.ofNat 4 (t % 16), BitVec.ofNat 1 (t / 16))

/-- Add by ADDER_MODE (R148). -/
def add (mode : AdderMode) (consumed : Bool) (t : Nat) : Except Fault (Nibble × Bit) :=
  match mode with
  | .decimal => addDec consumed t
  | .binary4 => .ok (addBin4 t)

/-- The micro-operation consumes sum or cout (R151). -/
def consumesSum : Instr → Bool
  | .rwSum | .rwRSSum | .rwSSum | .rwRSum => true
  | .r1Sum | .r2Sum | .cw | .swSum | .swQSum | .qwSum | .stShift => true
  | .aR | .aM | .aST | .aNR | .a10NC | .aS | .a4 => false
  | .bS | .bNS | .bQ | .b6 | .b1 | .gC | .gNC | .gNK => false
  | .rwR3 | .rwS | .rwRS | .mwS | .swQ | .ks | .stRot => false

/-- uses_sum(u) (R151). -/
def usesSum (ops : Micro) : Bool := ops.any consumesSum

/-- The micro-operation is a source of alpha, beta or gamma (R130-R144); the others are write-backs. -/
def isSource : Instr → Bool
  | .aR | .aM | .aST | .aNR | .a10NC | .aS | .a4 => true
  | .bS | .bNS | .bQ | .b6 | .b1 | .gC | .gNC | .gNK => true
  | .rwR3 | .rwSum | .rwS | .rwRSSum | .rwSSum | .rwRS | .rwRSum => false
  | .r1Sum | .r2Sum | .mwS | .cw | .swQ | .swSum | .swQSum | .qwSum | .ks | .stShift | .stRot => false

end Sys2Proof.Machine
end

