-- ==== Sys2Proof/Machine/Terms.lean ====
section
/-! DEFINITION. The term sources, 41_alu_terms.md R130-R144: each ORs its contribution into its term and writes
no register. -/

namespace Sys2Proof.Machine

/-- A_R (R130). -/
def execAR (s : State) : Host.Outcome State Fault Refusal := .next (s.orAlpha s.chip.ri)

/-- A_M (R131). -/
def execAM (s : State) : Host.Outcome State Fault Refusal := .next (s.orAlpha s.chip.mi)

/-- A_ST (R132). -/
def execAST (s : State) : Host.Outcome State Fault Refusal := .next (s.orAlpha s.chip.sti)

/-- A_NR (R133). -/
def execANR (s : State) : Host.Outcome State Fault Refusal := .next (s.orAlpha (complement4 s.chip.ri))

/-- A_10NC (R134). -/
def execA10NC (s : State) : Host.Outcome State Fault Refusal := .next (s.orAlpha (tenIfClear s.chip.carry))

/-- A_S (R135). -/
def execAS (s : State) : Host.Outcome State Fault Refusal := .next (s.orAlpha s.chip.sReg)

/-- A_4 (R136). -/
def execA4 (s : State) : Host.Outcome State Fault Refusal := .next (s.orAlpha 4)

/-- B_S (R137). -/
def execBS (s : State) : Host.Outcome State Fault Refusal := .next (s.orBeta s.chip.sReg)

/-- B_NS (R138). -/
def execBNS (s : State) : Host.Outcome State Fault Refusal := .next (s.orBeta (complement4 s.chip.sReg))

/-- B_Q (R139). -/
def execBQ (s : State) : Host.Outcome State Fault Refusal := .next (s.orBeta s.chip.qReg)

/-- B_6 (R140). -/
def execB6 (s : State) : Host.Outcome State Fault Refusal := .next (s.orBeta 6)

/-- B_1 (R141). -/
def execB1 (s : State) : Host.Outcome State Fault Refusal := .next (s.orBeta 1)

/-- G_C (R142). -/
def execGC (s : State) : Host.Outcome State Fault Refusal := .next (s.orGamma s.chip.carry)

/-- G_NC (R143). -/
def execGNC (s : State) : Host.Outcome State Fault Refusal := .next (s.orGamma (complement1 s.chip.carry))

/-- G_NK, from the keypad_event of this tick (R117, R144). -/
def execGNK (s : State) : Host.Outcome State Fault Refusal := .next (s.orGamma (complement1 s.bus.ke))

end Sys2Proof.Machine
end

