-- ==== Sys2Proof/Machine/WriteBankR.lean ====
section
/-! DEFINITION. The writes of bank R, 42_writeback.md R160-R168. -/

namespace Sys2Proof.Machine

/-- R[i] := v. -/
def State.putRi (s : State) (v : Nibble) : State := s.withChip (s.chip.writeR s.chip.i v)

/-- RW_R3 (R160). -/
def execRwR3 (s : State) : Host.Outcome State Fault Refusal := .next (s.putRi s.chip.ri3)

/-- RW_SUM (R161). -/
def execRwSum (s : State) : Host.Outcome State Fault Refusal := .next (s.putRi s.bus.sum)

/-- RW_S (R162). -/
def execRwS (s : State) : Host.Outcome State Fault Refusal := .next (s.putRi s.chip.sReg)

/-- RW_RSSUM (R163). -/
def execRwRSSum (s : State) : Host.Outcome State Fault Refusal :=
  .next (s.putRi (s.chip.ri ||| s.chip.sReg ||| s.bus.sum))

/-- RW_SSUM (R164). -/
def execRwSSum (s : State) : Host.Outcome State Fault Refusal := .next (s.putRi (s.chip.sReg ||| s.bus.sum))

/-- RW_RS (R165). -/
def execRwRS (s : State) : Host.Outcome State Fault Refusal := .next (s.putRi (s.chip.ri ||| s.chip.sReg))

/-- RW_RSUM (R166). -/
def execRwRSum (s : State) : Host.Outcome State Fault Refusal := .next (s.putRi (s.chip.ri ||| s.bus.sum))

/-- R1_SUM: the index i-1 is taken modulo 42 (R12, R167). -/
def execR1Sum (s : State) : Host.Outcome State Fault Refusal :=
  .next (s.withChip (s.chip.writeR (s.chip.i - 1) s.bus.sum))

/-- R2_SUM: the index i-2 is taken modulo 42 (R12, R168). -/
def execR2Sum (s : State) : Host.Outcome State Fault Refusal :=
  .next (s.withChip (s.chip.writeR (s.chip.i - 2) s.bus.sum))

end Sys2Proof.Machine
end

