-- ==== Sys2Proof/Machine/WriteBankST.lean ====
section
/-! DEFINITION. The ST updates, 42_writeback.md R177 and R178. -/

namespace Sys2Proof.Machine

/-- ST[i, i+1, i+2] := (a, b, c), indices modulo 42 (R12). -/
def Chip.writeTriple (ch : Chip) (a b c : Nibble) : Chip :=
  ((ch.writeST ch.i a).writeST (ch.i + 1) b).writeST (ch.i + 2) c

/-- ST_SHIFT: (sum, ST[i], ST[i+1]) (R177). -/
def execStShift (s : State) : Host.Outcome State Fault Refusal :=
  .next (s.withChip (s.chip.writeTriple s.bus.sum s.chip.sti s.chip.sti1))

/-- ST_ROT: (ST[i+1], ST[i+2], ST[i]) (R178). -/
def execStRot (s : State) : Host.Outcome State Fault Refusal :=
  .next (s.withChip (s.chip.writeTriple s.chip.sti1 s.chip.sti2 s.chip.sti))

end Sys2Proof.Machine
end

