-- ==== Sys2Proof/Machine/WriteScalar.lean ====
section
/-! DEFINITION. The writes of M, carry, S and Q, 42_writeback.md R169-R175. -/

namespace Sys2Proof.Machine

/-- MW_S (R169). -/
def execMwS (s : State) : Host.Outcome State Fault Refusal :=
  .next (s.withChip (s.chip.writeM s.chip.i s.chip.sReg))

/-- CW (R170). -/
def execCw (s : State) : Host.Outcome State Fault Refusal := .next (s.withChip (s.chip.setCarry s.bus.cout))

/-- SW_Q (R171). -/
def execSwQ (s : State) : Host.Outcome State Fault Refusal := .next (s.withChip (s.chip.setS s.chip.qReg))

/-- SW_SUM (R172). -/
def execSwSum (s : State) : Host.Outcome State Fault Refusal := .next (s.withChip (s.chip.setS s.bus.sum))

/-- SW_QSUM (R173). -/
def execSwQSum (s : State) : Host.Outcome State Fault Refusal :=
  .next (s.withChip (s.chip.setS (s.chip.qReg ||| s.bus.sum)))

/-- QW_SUM (R174); a KS of the same word comes after it in the order of R116 and wins. -/
def execQwSum (s : State) : Host.Outcome State Fault Refusal := .next (s.withChip (s.chip.setQ s.bus.sum))

/-- KS: Q takes KEY_Q(key, mode, s), formed from the state at the tick's start (R115, R175). -/
def execKs (s : State) : Host.Outcome State Fault Refusal := .next (s.withChip (s.chip.setQ s.bus.keyQ))

end Sys2Proof.Machine
end

