-- ==== Sys2Proof/Machine/Dispatch.lean ====
section
/-! DEFINITION. The meaning of every micro-operation, one arm per row of the opcode table (30_encoding.md R102). -/

namespace Sys2Proof.Machine

def exec (i : Instr) (s : State) : Host.Outcome State Fault Refusal :=
  match i with
  | .aR => Sys2Proof.Machine.execAR s
  | .aM => Sys2Proof.Machine.execAM s
  | .aST => Sys2Proof.Machine.execAST s
  | .aNR => Sys2Proof.Machine.execANR s
  | .a10NC => Sys2Proof.Machine.execA10NC s
  | .aS => Sys2Proof.Machine.execAS s
  | .a4 => Sys2Proof.Machine.execA4 s
  | .bS => Sys2Proof.Machine.execBS s
  | .bNS => Sys2Proof.Machine.execBNS s
  | .bQ => Sys2Proof.Machine.execBQ s
  | .b6 => Sys2Proof.Machine.execB6 s
  | .b1 => Sys2Proof.Machine.execB1 s
  | .gC => Sys2Proof.Machine.execGC s
  | .gNC => Sys2Proof.Machine.execGNC s
  | .gNK => Sys2Proof.Machine.execGNK s
  | .rwR3 => Sys2Proof.Machine.execRwR3 s
  | .rwSum => Sys2Proof.Machine.execRwSum s
  | .rwS => Sys2Proof.Machine.execRwS s
  | .rwRSSum => Sys2Proof.Machine.execRwRSSum s
  | .rwSSum => Sys2Proof.Machine.execRwSSum s
  | .rwRS => Sys2Proof.Machine.execRwRS s
  | .rwRSum => Sys2Proof.Machine.execRwRSum s
  | .r1Sum => Sys2Proof.Machine.execR1Sum s
  | .r2Sum => Sys2Proof.Machine.execR2Sum s
  | .mwS => Sys2Proof.Machine.execMwS s
  | .cw => Sys2Proof.Machine.execCw s
  | .swQ => Sys2Proof.Machine.execSwQ s
  | .swSum => Sys2Proof.Machine.execSwSum s
  | .swQSum => Sys2Proof.Machine.execSwQSum s
  | .qwSum => Sys2Proof.Machine.execQwSum s
  | .ks => Sys2Proof.Machine.execKs s
  | .stShift => Sys2Proof.Machine.execStShift s
  | .stRot => Sys2Proof.Machine.execStRot s

end Sys2Proof.Machine
end

