-- ==== Sys2Proof/Machine/HostOps.lean ====
section
/-! DEFINITION. The host's operations other than the tick: calc_init (70_reset_and_hazards.md R250), load and dump
(20_memory.md R62, R63). -/

namespace Sys2Proof.Machine

/-- The program store that an array of bytes makes: every address written, from an empty list of cells. -/
def Memory.ofBytes (p : List Byte) : Memory := Memory.writeFrom [] 0 p

/-- calc_init(prog) (R250): a program of another length than PROG_LEN is refused, and nothing changes
(DEDUCED, log entry 18); with none, PROG_INIT is taken. -/
def hostInit (prog : Option (List Byte)) (s : State) : State :=
  match prog with
  | none => s.initialised s.cfg.progInit
  | some p => if p.length = s.cfg.progLen then s.initialised (Memory.ofBytes p) else s.withOut .initRefused

/-- Load(p) (R62): MemWrite of every byte, no other state changes; another length than PROG_LEN is refused.
A recorded fault does not stop it (DEDUCED, log entry 15). -/
def hostLoad (p : List Byte) (s : State) : State :=
  if p.length = s.cfg.progLen then (s.withProg (Memory.writeFrom s.prog 0 p)).withOut .loaded
  else s.withOut .loadRefused

/-- Dump() (R63): the PROG_LEN bytes in index order; no state changes. -/
def hostDump (s : State) : State := s.withOut (.dumped (Memory.bytes s.prog s.cfg.progLen))

end Sys2Proof.Machine
end

