-- ==== Sys2Proof/Machine/Display.lean ====
section
/-! DEFINITION. Display emission, 44_display_keys.md R200-R204, and the display digit codes, 30_encoding.md R95. -/

namespace Sys2Proof.Machine

/-- idx(k), the display index of a slot (R200). -/
def displayIndex (k : Fin 14) : Int := if k.val < 2 then -1 else (k.val : Int) - 2

/-- What a digit code shows (R95). -/
def glyph (d : Nibble) : Glyph :=
  if d.toNat < 10 then .numeral d.toNat
  else if d = 10 then .minus
  else if d = 11 then .letterL
  else if d = 12 then .letterC
  else if d = 13 then .letterR
  else if d = 14 then .letterE
  else .blank

/-- The event of a slot, from the state at the tick's start and the tick's macro word (R201). -/
def displayEvent (g : Cfg) (start : Chip) (ak : Nat) : Event where
  index := displayIndex start.slot
  digit := (displayValue g start ak).1
  dot := (displayValue g start ak).2

/-- Display (R201): at i = 41 the event is emitted, dot and show_dot[slot] take its dot, and the slot advances
modulo 14; at every other tick nothing. `c` is the state after the FIFO exchange. -/
def display (g : Cfg) (start : Chip) (ak : Nat) (c : Chip) : Chip × List Event :=
  if start.i = 41 then
    ({ c with
        dot := (displayEvent g start ak).dot
        showDot := c.showDot.set start.slot.val (displayEvent g start ak).dot start.slot.isLt
        slot := start.slot + 1 },
      [displayEvent g start ak])
  else (c, [])

end Sys2Proof.Machine
end

