-- ==== Sys2Proof/WellFormed.lean ====
section
/-! DEFINITION. Which lists of micro-operations are microinstructions: 30_encoding.md R85, R99 and R102. -/

namespace Sys2Proof

/-- The row of the opcode map (R102), counted from 0. -/
def Instr.index : Instr → Nat
  | .aR => 0 | .aM => 1 | .aST => 2 | .aNR => 3 | .a10NC => 4 | .aS => 5 | .a4 => 6
  | .bS => 7 | .bNS => 8 | .bQ => 9 | .b6 => 10 | .b1 => 11
  | .gC => 12 | .gNC => 13 | .gNK => 14
  | .rwR3 => 15 | .rwSum => 16 | .rwS => 17 | .rwRSSum => 18 | .rwSSum => 19 | .rwRS => 20 | .rwRSum => 21
  | .r1Sum => 22 | .r2Sum => 23 | .mwS => 24 | .cw => 25
  | .swQ => 26 | .swSum => 27 | .swQSum => 28 | .qwSum => 29 | .ks => 30 | .stShift => 31 | .stRot => 32

/-- The field of the word (R81) that selects the micro-operation. -/
def Instr.field : Instr → Field
  | .aR => .aR | .aM => .aM | .aST => .aST | .aNR => .aNR | .a10NC => .a10NC | .aS => .aS | .a4 => .a4
  | .bS => .bS | .bNS => .bNS | .bQ => .bQ | .b6 => .b6 | .b1 => .b1
  | .gC => .gC | .gNC => .gNC | .gNK => .gNK
  | .rwR3 | .rwSum | .rwS | .rwRSSum | .rwSSum | .rwRS | .rwRSum => .rw
  | .r1Sum => .r1 | .r2Sum => .r2 | .mwS => .mw | .cw => .cw
  | .swQ | .swSum | .swQSum => .sw
  | .qwSum => .qw | .ks => .ks
  | .stShift | .stRot => .stw

/-- A list of micro-operations is a microinstruction when it stands in the order of the opcode map, none twice, and
when no two of them are values of one mode field, which exclude each other (R82, R83, R84, R102). -/
abbrev Micro.WellFormed (ops : Micro) : Prop :=
  ops.Pairwise fun a b => a.index < b.index ∧ a.field ≠ b.field

/-- One micro-operation is well-formed when it is so as a microinstruction of its own; it has no operand that
could be out of range (R90). -/
abbrev Instr.WellFormed (i : Instr) : Prop := Micro.WellFormed [i]

end Sys2Proof
end

