-- ==== Sys2Proof/Decode.lean ====
section
/-! DEFINITION. The decoder and the encoder of a microinstruction word: 30_encoding.md R81-R91, R99, R101 and R102. -/

namespace Sys2Proof

/-- The mask of the opcode map (R102). -/
def Instr.mask : Instr → Code28
  | .aR => 0x0000001 | .aM => 0x0000002 | .aST => 0x0000004 | .aNR => 0x0000008
  | .a10NC => 0x0000010 | .aS => 0x0000020 | .a4 => 0x0000040
  | .bS => 0x0000080 | .bNS => 0x0000100 | .bQ => 0x0000200 | .b6 => 0x0000400 | .b1 => 0x0000800
  | .gC => 0x0001000 | .gNC => 0x0002000 | .gNK => 0x0004000
  | .rwR3 | .rwSum | .rwS | .rwRSSum | .rwSSum | .rwRS | .rwRSum => 0x0038000
  | .r1Sum => 0x0040000 | .r2Sum => 0x0080000 | .mwS => 0x0100000 | .cw => 0x0200000
  | .swQ | .swSum | .swQSum => 0x0C00000
  | .qwSum => 0x1000000 | .ks => 0x2000000
  | .stShift | .stRot => 0xC000000

/-- The match of the opcode map (R102): the bits the micro-operation sets in its field. -/
def Instr.code : Instr → Code28
  | .aR => 0x0000001 | .aM => 0x0000002 | .aST => 0x0000004 | .aNR => 0x0000008
  | .a10NC => 0x0000010 | .aS => 0x0000020 | .a4 => 0x0000040
  | .bS => 0x0000080 | .bNS => 0x0000100 | .bQ => 0x0000200 | .b6 => 0x0000400 | .b1 => 0x0000800
  | .gC => 0x0001000 | .gNC => 0x0002000 | .gNK => 0x0004000
  | .rwR3 => 0x0008000 | .rwSum => 0x0010000 | .rwS => 0x0018000 | .rwRSSum => 0x0020000
  | .rwSSum => 0x0028000 | .rwRS => 0x0030000 | .rwRSum => 0x0038000
  | .r1Sum => 0x0040000 | .r2Sum => 0x0080000 | .mwS => 0x0100000 | .cw => 0x0200000
  | .swQ => 0x0400000 | .swSum => 0x0800000 | .swQSum => 0x0C00000
  | .qwSum => 0x1000000 | .ks => 0x2000000
  | .stShift => 0x4000000 | .stRot => 0x8000000

/-- The word selects the micro-operation (R102). -/
def Instr.selectedBy (c : Code28) (i : Instr) : Bool := c &&& i.mask == i.code

/-- Why a word has no meaning: both reasons raise Fault(ReservedField, UA) (R101). -/
inductive DecodeError where
  /-- A bit that the layout does not name is set (R87, R91). -/
  | reservedBits
  /-- STW = 3 (R88). -/
  | reservedStw
  deriving DecidableEq, Repr

/-- A bit of the container that the layout does not name is set; under the layout of R81 these are bits 31:28
(R87, R91). -/
def Layout.reservedBitSet : Layout → MicroWord → Bool
  | .standard, w => w.extractLsb' 28 4 != 0
  | .custom pos, w => (List.finRange 32).any fun p => w.getLsbD p.val && !(pos.toList.contains p)

/-- The 28 bits of R81, each read from its position (R91, R101). -/
def Layout.gather : Layout → MicroWord → Code28
  | .standard, w => w.extractLsb' 0 28
  | .custom pos, w => BitVec.ofFnLE fun k : Fin 28 => w.getLsbD (pos.get k).val

/-- The 28 bits of R81 put at their positions, every other bit of the container 0 (R91). -/
def Layout.scatter : Layout → Code28 → MicroWord
  | .standard, c => c.setWidth 32
  | .custom pos, c =>
    BitVec.ofFnLE fun p : Fin 32 => (List.finRange 28).any fun k => pos.get k == p && c.getLsbD k.val

/-- STW, bits 27:26 of R81 (R84). -/
def stwField (c : Code28) : BitVec 2 := c.extractLsb' 26 2

/-- Decoding a fetched word (R101), total on any word. -/
def decode (l : Layout) (w : MicroWord) : Except DecodeError Micro :=
  if l.reservedBitSet w then .error .reservedBits
  else if stwField (l.gather w) = 3 then .error .reservedStw
  else .ok (Instr.all.filter (Instr.selectedBy (l.gather w)))

/-- The 28 bits of a microinstruction: the OR of its micro-operations' bits (R99). -/
def encode28 : Micro → Code28
  | [] => 0
  | i :: ops => i.code ||| encode28 ops

/-- The word of a microinstruction under a layout (R91, R99). -/
def encodeUnder (l : Layout) (ops : Micro) : MicroWord := l.scatter (encode28 ops)

/-- The word of a microinstruction under the layout of R81 (R99). -/
def encode (ops : Micro) : MicroWord := encodeUnder .standard ops

/-- The notation `u{ ... }` (R99): items in any order, an item given twice the same as once; two different values of
one mode field are refused. -/
def assemble (items : List Instr) : Option MicroWord :=
  if items.all fun a => items.all fun b => a.field ≠ b.field || a = b then some (encode items) else none

/-- The micro-operation that the decoder reads from a table row's bits, placed in the container with zeros above
them. A word that selects several micro-operations is no single row; its first in the order of R102 is answered
(DESIGN CHOICE, log entry 14). -/
def decodeTableWord (nbits w : Nat) : Option Instr :=
  match decode Layout.standard (BitVec.ofNat 32 (w % 2 ^ nbits)) with
  | .ok (i :: _) => some i
  | _ => none

end Sys2Proof
end

