-- ==== Sys2Proof/Machine/Fetch.lean ====
section
/-! DEFINITION. The fetch and decode stages of the tick, 40_sequencing.md R111-R113, which raise their faults in the
order of 60_exceptions.md R224. -/

namespace Sys2Proof.Machine

/-- MACRO_SELECT's answer, its reads made in its order; the first out of range ends it (R111, R224). -/
def Select.run (rd : Nat → Except Fault Byte) : Select → Except Fault Nat
  | .done n => .ok n
  | .read a k =>
    match rd a with
    | .error f => .error f
    | .ok b => Select.run rd (k b)

/-- FetchMacro (R111): AKI and AK of the tick. At i = 0 a new macro-instruction, at every other tick the latched
one. -/
def fetchMacro (s : State) : Except Fault (Nat × Nat) :=
  if s.chip.i = 0 then
    match Select.run (memRead s.cfg.progLen s.prog) (macroSelect s.cfg s.chip) with
    | .error f => .error f
    | .ok aki =>
      match s.cfg.cmdRom[aki]? with
      | none => .error (.macroAddr aki)
      | some ak => .ok (aki, ak)
  else .ok (s.chip.aki, s.chip.ak)

/-- FetchMicro (R112): UA and the word. -/
def fetchMicro (s : State) (ak : Nat) : Except Fault (Nat × MicroWord) :=
  match s.cfg.urom[microSelect s.cfg ak s.chip]? with
  | none => .error (.microAddr (microSelect s.cfg ak s.chip))
  | some w => .ok (microSelect s.cfg ak s.chip, w)

/-- Decode (R113): both reasons to reject a word raise ReservedField (R87, R88). -/
def decodeStage (l : Layout) (ua : Nat) (w : MicroWord) : Except Fault Micro :=
  match decode l w with
  | .error _ => .error (.reservedField ua)
  | .ok ops => .ok ops

/-- What the fetch and decode stages hand on. -/
structure Fetched where
  aki : Nat
  ak  : Nat
  ua  : Nat
  u   : MicroWord
  ops : Micro
  deriving DecidableEq, Repr

/-- The stages R111, R112 and R113 in their order; the first fault ends them (R224). -/
def fetch (s : State) : Except Fault Fetched :=
  match fetchMacro s with
  | .error f => .error f
  | .ok (aki, ak) =>
    match fetchMicro s ak with
    | .error f => .error f
    | .ok (ua, w) =>
      match decodeStage s.cfg.layout ua w with
      | .error f => .error f
      | .ok ops => .ok { aki := aki, ak := ak, ua := ua, u := w, ops := ops }

/-- The configuration under which the next tick fetches one given word: it alone in UROM and selected, in the layout
of R81, under one macro word that is selected (DESIGN CHOICE, log entry 9). -/
def fetchingCfg (g : Cfg) (w : MicroWord) : Cfg :=
  { g with
    cmdRom := [0]
    urom := [w]
    layout := .standard
    macroSelect := .given [] (.lit 0)
    microSelect := .given (.lit 0) }

end Sys2Proof.Machine
end

