-- ==== Sys2Proof/Machine/Fifo.lean ====
section
/-! DEFINITION. The serial FIFO chip and its link to bank M, 43_fifo.md R190-R195. -/

namespace Sys2Proof.Machine

/-- FifoStep(v) (R190): the counter advances, the addressed cell's old contents come out, the input goes in. What it
returns stands in the output port. -/
def Chip.fifoStep (c : Chip) (v : Nibble) : Chip :=
  { c with
    fifoInput := v
    fifoCycle := c.fifoCycle + 1
    fifoOutput := c.fifoData.get (c.fifoCycle + 1)
    fifoData := c.fifoData.set (c.fifoCycle + 1).val v (c.fifoCycle + 1).isLt }

/-- FifoExchange (R193): M[i] as the write-back left it goes in; under RING the output replaces it, under DETACHED
it is discarded (R195). -/
def fifoExchange (link : FifoLink) (c : Chip) : Chip :=
  match link with
  | .ring => (c.fifoStep c.mi).writeM c.i (c.fifoStep c.mi).fifoOutput
  | .detached => c.fifoStep c.mi

end Sys2Proof.Machine
end

