-- ==== Sys2Proof/Machine/Tick.lean ====
section
/-! DEFINITION. The stages of the tick around its micro-operations, 40_sequencing.md R110. -/

namespace Sys2Proof.Machine

/-- Before the terms (R110, R117, R145-R147): the terms at 0, keypad_event of this tick, and what a keypad sample
of this tick would give, both from the state at the tick's start (DEDUCED, log entry 17). -/
def beginTick (key : Byte) (mode : AngularMode) (s : State) : State :=
  s.withBus { Bus.idle with ke := keyEvent s.cfg key s.chip, keyQ := keyQ s.cfg key mode s.chip }

/-- Add (R148): sum and cout from the three terms, or AluRange (R149). -/
def addStage (ops : Micro) (s : State) : Except Fault State :=
  match add s.cfg.adderMode (usesSum ops) s.bus.total with
  | .error f => .error f
  | .ok (sum, cout) => .ok (s.withBus { s.bus with sum := sum, cout := cout })

/-- The latches and the window advance at the tick's end (R110, R119). -/
def Chip.latch (c : Chip) (f : Fetched) (ke : Bit) : Chip :=
  { c with ak := f.ak, aki := f.aki, u := f.u, ua := f.ua, keypadEvent := ke, i := c.i + 1 }

/-- After the write-back (R110): the FIFO exchange, the display, the latches, and what the host gets back, with
RUNNING read from the state at the tick's end (R210). `start` is the CORE at the tick's start. -/
def finishTick (start : Chip) (f : Fetched) (s : State) : State :=
  let shown := display s.cfg start f.ak (fifoExchange s.cfg.fifoLink s.chip)
  let final := shown.1.latch f s.bus.ke
  ((s.withChip final).withBus Bus.idle).withOut (.ticked shown.2 (.ok (running s.cfg final)))

end Sys2Proof.Machine
end

