-- ==== Sys2Proof/Machine/Step.lean ====
section
/-! DEFINITION. One step: the oldest host operation that is still to come (44_display_keys.md R211), the tick among
them (40_sequencing.md R110). -/

namespace Sys2Proof.Machine

/-- The selected micro-operations of one tick, applied in the order of R116, each reading the registers as they stand
(DEDUCED from R115 and R179, log entry 10). -/
def runOps : Micro → State → Host.Outcome State Fault Refusal
  | [], s => .next s
  | i :: ops, s =>
    match exec i s with
    | .next t => runOps ops t
    | .fault f => .fault f
    | .refused r => .refused r

/-- The tick from its decoded microinstruction on (R110): the terms, the adder, the write-back, the end. -/
def runMicro (f : Fetched) (key : Byte) (mode : AngularMode) (s : State) : Host.Outcome State Fault Refusal :=
  match runOps (f.ops.filter isSource) (beginTick key mode s) with
  | .next s1 =>
    match addStage f.ops s1 with
    | .error flt => .next (s.takeFault flt)
    | .ok s2 =>
      match runOps (f.ops.filter fun i => !isSource i) s2 with
      | .next s3 => .next (finishTick s.chip f s3)
      | .fault r => .fault r
      | .refused r => .refused r
  | .fault r => .fault r
  | .refused r => .refused r

/-- Tick (R110): nothing but the recorded fault's report in a faulted state (R114), else fetch, decode and the
rest; a fault of a stage ends it (R222). -/
def calcStep (key : Byte) (mode : AngularMode) (s : State) : Host.Outcome State Fault Refusal :=
  match s.chip.fault with
  | some r => .next (s.withOut (.ticked [] (.faulted r)))
  | none =>
    match fetch s with
    | .error flt => .next (s.takeFault flt)
    | .ok f => runMicro f key mode s

/-- One host operation (R211). -/
def hostStep (op : HostOp) (s : State) : Host.Outcome State Fault Refusal :=
  match op with
  | .init prog => .next (hostInit prog s)
  | .tick key mode => calcStep key mode s
  | .load p => .next (hostLoad p s)
  | .dump => .next (hostDump s)

/-- The oldest host operation to come; with none, the CORE holds its state unchanged (R232). -/
def step (s : State) : Host.Outcome State Fault Refusal :=
  match s.pending with
  | [] => .next s
  | op :: rest => hostStep op (s.withPending rest)

/-- The state whose next step is a tick that runs the given word: the host supplies the configuration (R252) and
calls calc_step with no key (DESIGN CHOICE, log entry 9). -/
def State.withFetchWord (s : State) (nbits w : Nat) : State :=
  { s with
    chip := { s.chip with fault := none }
    cfg := fetchingCfg s.cfg (BitVec.ofNat 32 (w % 2 ^ nbits))
    pending := .tick 0 .radians :: s.pending }

end Sys2Proof.Machine
end

