-- ==== Sys2Proof/Safety.lean ====
section
/-! DEFINITION. What the claims are stated in: the tick of 40_sequencing.md R110 in one closed form, the fault-free
run, the invariants, and the conformance constraints on a configuration (R208, R213). -/

namespace Sys2Proof.Safety

open Sys2Proof.Machine

/-- alpha: the OR of the contributions of the alpha sources that are set, from 0 (R145). -/
def alphaOf (ops : Micro) (c : Chip) : Nibble :=
  (if .aR ∈ ops then c.r.get c.i else 0) ||| (if .aM ∈ ops then c.m.get c.i else 0) |||
  (if .aST ∈ ops then c.st.get c.i else 0) ||| (if .aNR ∈ ops then ~~~ (c.r.get c.i) else 0) |||
  (if .a10NC ∈ ops ∧ c.carry = 0 then 10 else 0) ||| (if .aS ∈ ops then c.sReg else 0) |||
  (if .a4 ∈ ops then 4 else 0)

/-- beta: the OR of the contributions of the beta sources that are set, from 0 (R146). -/
def betaOf (ops : Micro) (c : Chip) : Nibble :=
  (if .bS ∈ ops then c.sReg else 0) ||| (if .bNS ∈ ops then ~~~ c.sReg else 0) |||
  (if .bQ ∈ ops then c.qReg else 0) ||| (if .b6 ∈ ops then 6 else 0) ||| (if .b1 ∈ ops then 1 else 0)

/-- gamma: the OR of the contributions of the gamma sources that are set, from 0 (R147). -/
def gammaOf (ops : Micro) (c : Chip) (ke : Bit) : Bit :=
  (if .gC ∈ ops then c.carry else 0) ||| (if .gNC ∈ ops then ~~~ c.carry else 0) |||
  (if .gNK ∈ ops then ~~~ ke else 0)

/-- t of a tick (R148). -/
def totalOf (ops : Micro) (c : Chip) (ke : Bit) : Nat :=
  (alphaOf ops c).toNat + (betaOf ops c).toNat + (gammaOf ops c ke).toNat

/-- What the RW field writes into R[i], from the state at the tick's start (R160-R166, R176). -/
def rwValue (ops : Micro) (c : Chip) (sum : Nibble) : Nibble :=
  if .rwR3 ∈ ops then c.r.get (c.i + 3)
  else if .rwSum ∈ ops then sum
  else if .rwS ∈ ops then c.sReg
  else if .rwRSSum ∈ ops then c.r.get c.i ||| c.sReg ||| sum
  else if .rwSSum ∈ ops then c.sReg ||| sum
  else if .rwRS ∈ ops then c.r.get c.i ||| c.sReg
  else if .rwRSum ∈ ops then c.r.get c.i ||| sum
  else c.r.get c.i

/-- Word j of bank R after the write-back (R116, R167, R168). -/
def rAfter (ops : Micro) (c : Chip) (sum : Nibble) (j : Fin 42) : Nibble :=
  if j = c.i then rwValue ops c sum
  else if j = c.i - 1 ∧ .r1Sum ∈ ops then sum
  else if j = c.i - 2 ∧ .r2Sum ∈ ops then sum
  else c.r.get j

/-- Word j of bank M after the write-back, before the FIFO exchange (R116, R169). -/
def mAfter (ops : Micro) (c : Chip) (j : Fin 42) : Nibble :=
  if j = c.i ∧ .mwS ∈ ops then c.sReg else c.m.get j

/-- Word j of bank ST after the write-back (R116, R177, R178). -/
def stAfter (ops : Micro) (c : Chip) (sum : Nibble) (j : Fin 42) : Nibble :=
  if .stShift ∈ ops then
    (if j = c.i then sum else if j = c.i + 1 then c.st.get c.i
     else if j = c.i + 2 then c.st.get (c.i + 1) else c.st.get j)
  else if .stRot ∈ ops then
    (if j = c.i then c.st.get (c.i + 1) else if j = c.i + 1 then c.st.get (c.i + 2)
     else if j = c.i + 2 then c.st.get c.i else c.st.get j)
  else c.st.get j

/-- WriteBack (R116): every selected write, all computed from the state at the tick's start (R115). -/
def writeBack (ops : Micro) (c : Chip) (sum : Nibble) (cout : Bit) (sample : Nibble) : Chip :=
  { c with
    r := Vector.ofFn (rAfter ops c sum)
    m := Vector.ofFn (mAfter ops c)
    st := Vector.ofFn (stAfter ops c sum)
    carry := if .cw ∈ ops then cout else c.carry
    sReg := if .swQ ∈ ops then c.qReg else if .swSum ∈ ops then sum
      else if .swQSum ∈ ops then c.qReg ||| sum else c.sReg
    qReg := if .ks ∈ ops then sample else if .qwSum ∈ ops then sum else c.qReg }

/-- The tick in the closed form of R110: the terms and the write-back each in one go, from the state at the
tick's start. -/
def closedTick (key : Byte) (mode : AngularMode) (s : State) : State :=
  match s.chip.fault with
  | some r => s.withOut (.ticked [] (.faulted r))
  | none =>
    match fetch s with
    | .error flt => s.takeFault flt
    | .ok f =>
      match add s.cfg.adderMode (usesSum f.ops) (totalOf f.ops s.chip (keyEvent s.cfg key s.chip)) with
      | .error flt => s.takeFault flt
      | .ok (sum, cout) =>
        finishTick s.chip f ((s.withChip (writeBack f.ops s.chip sum cout (keyQ s.cfg key mode s.chip))).withBus
          { Bus.idle with ke := keyEvent s.cfg key s.chip })

/-- What the stages R111-R113 hand on when they succeed: at i = 0 the index that MACRO_SELECT answers and its word of
the command table, at every other i the latched pair; the index that MICRO_SELECT answers and its word of the
microinstruction table; that word's decoding. -/
def Fetches (s : State) (f : Fetched) : Prop :=
  (s.chip.i = 0 → Select.run (memRead s.cfg.progLen s.prog) (macroSelect s.cfg s.chip) = .ok f.aki ∧
    s.cfg.cmdRom[f.aki]? = some f.ak) ∧
  (s.chip.i ≠ 0 → f.aki = s.chip.aki ∧ f.ak = s.chip.ak) ∧
  f.ua = microSelect s.cfg f.ak s.chip ∧ s.cfg.urom[f.ua]? = some f.u ∧ decode s.cfg.layout f.u = .ok f.ops

/-- The address of the first read of MACRO_SELECT that is not below PROG_LEN, its reads followed in their order, each
that is in range by the byte of the program store; none where every read is in range (R65, R224). -/
def firstOutOfRange (progLen : Nat) (m : Memory) : Select → Option Nat
  | .done _ => none
  | .read a k => if a < progLen then firstOutOfRange progLen m (k (Memory.read m a)) else some a

/-- The layout rejects the word: a bit that it does not name is set (R87, R91), or its STW field is 3 (R88). -/
def ReservedUnder : Layout → MicroWord → Prop
  | .standard, w => w.extractLsb' 28 4 ≠ 0 ∨ w.extractLsb' 26 2 = 3
  | .custom pos, w =>
    (∃ p : Fin 32, (∀ k : Fin 28, pos.get k ≠ p) ∧ w.getLsbD p.val = true) ∨
    (w.getLsbD (pos.get 26).val = true ∧ w.getLsbD (pos.get 27).val = true)

/-- The next step of the state is a tick that runs the fetched microinstruction `f`: a calc_step is the oldest host
operation, no fault is recorded, and the stages R111-R113 answer `f`. -/
structure Fetching (s : State) (key : Byte) (mode : AngularMode) (rest : List HostOp) (f : Fetched) : Prop where
  pending : s.pending = .tick key mode :: rest
  noFault : s.chip.fault = none
  fetched : fetch s = .ok f

/-- t of the tick that is about to run `f`. -/
def tickTotal (s : State) (key : Byte) (f : Fetched) : Nat := totalOf f.ops s.chip (keyEvent s.cfg key s.chip)

/-- The tick raises no AluRange: its t is below 20, or its adder is the binary one, or it consumes neither sum nor
cout (R149-R151). -/
def InRange (s : State) (key : Byte) (f : Fetched) : Prop :=
  tickTotal s key f ≤ 19 ∨ s.cfg.adderMode = .binary4 ∨ usesSum f.ops = false

/-- The sum of the tick that is about to run `f`, where it raises no AluRange (R149, R150). -/
def tickSum (s : State) (key : Byte) (f : Fetched) : Nibble :=
  match s.cfg.adderMode with
  | .decimal => BitVec.ofNat 4 (tickTotal s key f % 10)
  | .binary4 => BitVec.ofNat 4 (tickTotal s key f % 16)

/-- Its carry-out, where t is in the adder's range (R149, R150). -/
def tickCout (s : State) (key : Byte) (f : Fetched) : Bit :=
  match s.cfg.adderMode with
  | .decimal => BitVec.ofNat 1 (tickTotal s key f / 10)
  | .binary4 => BitVec.ofNat 1 (tickTotal s key f / 16)

/-- Every byte of the program store reads as before, in range or not (R65). -/
def SameProgram (s t : State) : Prop :=
  ∀ a, memRead t.cfg.progLen t.prog a = memRead s.cfg.progLen s.prog a

/-- Nothing but the values of the tick in progress differs. -/
def OnlyBus (s t : State) : Prop := t = s.withBus t.bus ∧ SameProgram s t

/-- Nothing but bank R differs. -/
def OnlyR (s t : State) : Prop := t = s.withChip { s.chip with r := t.chip.r } ∧ SameProgram s t

/-- Nothing but bank M differs. -/
def OnlyM (s t : State) : Prop := t = s.withChip { s.chip with m := t.chip.m } ∧ SameProgram s t

/-- Nothing but bank ST differs. -/
def OnlyST (s t : State) : Prop := t = s.withChip { s.chip with st := t.chip.st } ∧ SameProgram s t

/-- Nothing but carry differs. -/
def OnlyCarry (s t : State) : Prop := t = s.withChip { s.chip with carry := t.chip.carry } ∧ SameProgram s t

/-- Nothing but S differs. -/
def OnlyS (s t : State) : Prop := t = s.withChip { s.chip with sReg := t.chip.sReg } ∧ SameProgram s t

/-- Nothing but Q differs. -/
def OnlyQ (s t : State) : Prop := t = s.withChip { s.chip with qReg := t.chip.qReg } ∧ SameProgram s t

/-- The micro-operation completes, ORs `v` into alpha and does nothing else. -/
def JoinsAlpha (i : Instr) (v : State → Nibble) : Prop :=
  ∀ s, ∃ t, exec i s = .next t ∧ t.bus = { s.bus with alpha := s.bus.alpha ||| v s } ∧ OnlyBus s t

/-- The micro-operation completes, ORs `v` into beta and does nothing else. -/
def JoinsBeta (i : Instr) (v : State → Nibble) : Prop :=
  ∀ s, ∃ t, exec i s = .next t ∧ t.bus = { s.bus with beta := s.bus.beta ||| v s } ∧ OnlyBus s t

/-- The micro-operation completes, ORs `b` into gamma and does nothing else. -/
def JoinsGamma (i : Instr) (b : State → Bit) : Prop :=
  ∀ s, ∃ t, exec i s = .next t ∧ t.bus = { s.bus with gamma := s.bus.gamma ||| b s } ∧ OnlyBus s t

/-- The micro-operation completes, writes `v` into R[j] and does nothing else. -/
def PutsR (i : Instr) (j : State → Fin 42) (v : State → Nibble) : Prop :=
  ∀ s, ∃ t, exec i s = .next t ∧ t.chip.r.get (j s) = v s ∧
    (∀ k, k ≠ j s → t.chip.r.get k = s.chip.r.get k) ∧ OnlyR s t

/-- `n` steps, each of them a tick without a fault; the state reached, or none where a step is something else. -/
def cleanTicks : Nat → State → Option State
  | 0, s => some s
  | n + 1, s =>
    match s.pending, step s with
    | .tick _ _ :: _, .next t => if t.chip.fault = none then cleanTicks n t else none
    | _, _ => none

/-- The events of a result (R211). -/
def eventsIn : Result → List Event
  | .ticked events _ => events
  | _ => []

/-- The events that the next `n` host operations return, in their order (R203). -/
def eventsOf : Nat → State → List Event
  | 0, _ => []
  | n + 1, s =>
    match s.pending, step s with
    | _ :: _, .next t => eventsIn t.out ++ eventsOf n t
    | _, _ => []

/-- A configuration keeps the constraints of R9: tables that are not empty, macro words of CMD_WORD_BITS bits, a
layout without shared bits, a PROG_INIT of at most PROG_LEN listed cells in canonical form. -/
structure CfgOk (g : Cfg) : Prop where
  cmdWordBits : 0 < g.cmdWordBits
  cmdRom : 0 < g.cmdRom.length
  cmdWords : ∀ w ∈ g.cmdRom, w < 2 ^ g.cmdWordBits
  urom : 0 < g.urom.length
  layout : g.layout.WellFormed = true
  progWf : Memory.wf g.progInit
  progBelow : Memory.below g.progInit g.progLen

/-- What a recorded fault says of the state it stopped in (R220, R221, R222). -/
def FaultFits (g : Cfg) (c : Chip) (r : FaultRecord) : Prop :=
  r.window = c.i ∧ r.slot = c.slot ∧
  match r.cause with
  | .progAddr a => g.progLen ≤ a ∧ c.i = 0
  | .macroAddr aki => g.cmdRom.length ≤ aki ∧ c.i = 0
  | .microAddr ua => g.urom.length ≤ ua
  | .reservedField ua => ua < g.urom.length
  | .aluRange t => 20 ≤ t ∧ t ≤ 31 ∧ g.adderMode = .decimal

/-- What holds of the machine between host operations. -/
structure MachineInv (s : State) : Prop where
  /-- The configuration keeps its constraints (R9). -/
  cfg : CfgOk s.cfg
  /-- The program store is in canonical form, within its PROG_LEN bytes (R39). -/
  progWf : Memory.wf s.prog
  progBelow : Memory.below s.prog s.cfg.progLen
  /-- No tick is in progress, and nothing of one is left (R41). -/
  bus : s.bus = Bus.idle
  /-- The latched macro word is a word of its table's width, its index in range (R30, R52). -/
  aki : s.chip.aki < s.cfg.cmdRom.length
  ak : s.chip.ak < 2 ^ s.cfg.cmdWordBits
  /-- Within a period AK is the word that AKI names (R30, R111). -/
  held : s.chip.i ≠ 0 → s.cfg.cmdRom[s.chip.aki]? = some s.chip.ak
  /-- The last microinstruction's index is in range, and its word is a legal one (R31, R89). -/
  ua : s.chip.ua < s.cfg.urom.length
  legal : ∃ ops, decode s.cfg.layout s.chip.u = .ok ops
  /-- A recorded fault fits the state that it stopped in (R220-R222). -/
  fault : ∀ r, s.chip.fault = some r → FaultFits s.cfg s.chip r
  /-- The FIFO cycle and the window offset advance together (R196). -/
  lockstep : s.chip.fifoCycle.val % 42 = s.chip.i.val

/-- KEY_Q tells each key of the table from no key (R208), for a configuration that gives KEY_Q as data. -/
def KeysDistinct (g : Cfg) : Prop :=
  ∀ (pressed : Key) (mode : AngularMode) (c : Chip), keyQ g (keycode pressed) mode c ≠ keyQ g 0 mode c

/-- Every element of the CORE has the value that calc_init gives it (R250). -/
def IsReset (c : Chip) : Prop :=
  (∀ j, c.r.get j = 0 ∧ c.m.get j = 0 ∧ c.st.get j = 0) ∧ c.sReg = 0 ∧ c.qReg = 0 ∧ c.carry = 0 ∧
  c.keypadEvent = 0 ∧ c.i = 0 ∧ c.ak = 0 ∧ c.aki = 0 ∧ c.u = 0 ∧ c.ua = 0 ∧ c.dot = 0 ∧
  (∀ k, c.showDot.get k = 0) ∧ c.slot = 0 ∧ c.fault = none ∧ (∀ k, c.fifoData.get k = 0) ∧ c.fifoCycle = 0 ∧
  c.fifoInput = 0 ∧ c.fifoOutput = 0

/-- The machine after calc_init with an all-zero program store, with host operations to come. -/
def fresh (g : Cfg) (ops : List HostOp) : State where
  chip := Chip.reset
  prog := []
  cfg := g
  bus := Bus.idle
  pending := ops
  out := .initDone

/-- The conformance constraint of R213 on a configuration: with no key at every tick, the first 588 ticks show
every index 0..11, every digit blank and no dot. It is a constraint that nothing in the model assumes. -/
def DisplayConformant (g : Cfg) : Prop :=
  ∀ modes : List AngularMode, modes.length = 588 →
    let shown := eventsOf 588 (fresh g (modes.map fun m => .tick 0 m))
    (∀ k : Fin 12, (k.val : Int) ∈ shown.map Event.index) ∧ ∀ e ∈ shown, e.digit = 15 ∧ e.dot = 0

end Sys2Proof.Safety
end

