-- ==== Sys2Proof/Certificates/Slice0/Obligations.lean ====
section
/-! DEFINITION. The statements for the provers, from the numbered rules of spec/. -/

open Sys2Proof Sys2Proof.Machine Sys2Proof.Safety

/-! Encoding -/

/-- R91, R99, R101: under every layout without shared bits, every microinstruction is what its word decodes to. -/
def Obligations.DecodeOfEncode : Prop :=
  ∀ (l : Layout) (ops : Micro), l.WellFormed = true → ops.WellFormed → decode l (encodeUnder l ops) = .ok ops

/-- R89, R91, R101: a word that decodes at all decodes to a microinstruction, whose word it is. -/
def Obligations.EncodeOfDecode : Prop :=
  ∀ (l : Layout) (w : MicroWord) (ops : Micro), l.WellFormed = true → decode l w = .ok ops →
    ops.WellFormed ∧ encodeUnder l ops = w

/-- R102: the opcode map; a word selects exactly the rows that it matches, of each mode field at most one. -/
def Obligations.WordSelectsMatchingRows : Prop :=
  (Instr.all.map fun i => (i.mask.toNat, i.code.toNat)) =
    [(0x1, 0x1), (0x2, 0x2), (0x4, 0x4), (0x8, 0x8), (0x10, 0x10), (0x20, 0x20), (0x40, 0x40), (0x80, 0x80),
     (0x100, 0x100), (0x200, 0x200), (0x400, 0x400), (0x800, 0x800), (0x1000, 0x1000), (0x2000, 0x2000),
     (0x4000, 0x4000), (0x38000, 0x8000), (0x38000, 0x10000), (0x38000, 0x18000), (0x38000, 0x20000),
     (0x38000, 0x28000), (0x38000, 0x30000), (0x38000, 0x38000), (0x40000, 0x40000), (0x80000, 0x80000),
     (0x100000, 0x100000), (0x200000, 0x200000), (0xC00000, 0x400000), (0xC00000, 0x800000),
     (0xC00000, 0xC00000), (0x1000000, 0x1000000), (0x2000000, 0x2000000), (0xC000000, 0x4000000),
     (0xC000000, 0x8000000)] ∧
  ∀ (w : MicroWord) (ops : Micro), decode .standard w = .ok ops →
    (∀ i, i ∈ ops ↔ w &&& i.mask.setWidth 32 = i.code.setWidth 32) ∧
    ∀ i ∈ ops, ∀ j ∈ ops, i.field = j.field → i = j

/-- R89, R91: every word but those of R87 and R88 is legal, under the layout of R81 and under every other. -/
def Obligations.OnlyReservedWordsRejected : Prop :=
  (∀ w : MicroWord, (∃ ops, decode .standard w = .ok ops) ↔ w.toNat < 2 ^ 28 ∧ w.toNat / 2 ^ 26 ≠ 3) ∧
  ∀ (l : Layout) (w : MicroWord), (∃ ops, decode l w = .ok ops) ↔ ¬ ReservedUnder l w

/-- Words written out from the layout of R81 (the vectors V1, V2, V5, V6, V7, V8 and V9 of
95_test_vectors.md). -/
def Obligations.SampleWordsDecode : Prop :=
  decode .standard 0x0000000 = .ok [] ∧
  decode .standard 0x0210801 = .ok [.aR, .b1, .rwSum, .cw] ∧
  decode .standard 0x8000000 = .ok [.stRot] ∧
  decode .standard 0x10000000 = .error .reservedBits ∧
  decode .standard 0x80000001 = .error .reservedBits ∧
  decode .standard 0xC000000 = .error .reservedStw ∧
  decode .standard 0x0007F83 = .ok [.aR, .aM, .bS, .bNS, .bQ, .b6, .b1, .gC, .gNC, .gNK]

/-! One micro-operation at a time: its effect, its frame, and that it completes in every state -/

/-- R130-R136: each alpha source completes, ORs its contribution into alpha and changes nothing else. -/
def Obligations.AlphaSourcesJoinAlpha : Prop :=
  JoinsAlpha .aR (fun s => s.chip.r.get s.chip.i) ∧ JoinsAlpha .aM (fun s => s.chip.m.get s.chip.i) ∧
  JoinsAlpha .aST (fun s => s.chip.st.get s.chip.i) ∧ JoinsAlpha .aNR (fun s => ~~~ (s.chip.r.get s.chip.i)) ∧
  JoinsAlpha .a10NC (fun s => if s.chip.carry = 0 then 10 else 0) ∧ JoinsAlpha .aS (fun s => s.chip.sReg) ∧
  JoinsAlpha .a4 (fun _ => 4)

/-- R137-R141: each beta source completes, ORs its contribution into beta and changes nothing else. -/
def Obligations.BetaSourcesJoinBeta : Prop :=
  JoinsBeta .bS (fun s => s.chip.sReg) ∧ JoinsBeta .bNS (fun s => ~~~ s.chip.sReg) ∧
  JoinsBeta .bQ (fun s => s.chip.qReg) ∧ JoinsBeta .b6 (fun _ => 6) ∧ JoinsBeta .b1 (fun _ => 1)

/-- R142-R144: each gamma source completes, ORs its contribution into gamma and changes nothing else. -/
def Obligations.GammaSourcesJoinGamma : Prop :=
  JoinsGamma .gC (fun s => s.chip.carry) ∧ JoinsGamma .gNC (fun s => ~~~ s.chip.carry) ∧
  JoinsGamma .gNK (fun s => ~~~ s.bus.ke)

/-- R160-R166: each value of the RW field completes, writes its value into R[i] and changes nothing else. -/
def Obligations.RwModesWriteRi : Prop :=
  PutsR .rwR3 (fun s => s.chip.i) (fun s => s.chip.r.get (s.chip.i + 3)) ∧
  PutsR .rwSum (fun s => s.chip.i) (fun s => s.bus.sum) ∧
  PutsR .rwS (fun s => s.chip.i) (fun s => s.chip.sReg) ∧
  PutsR .rwRSSum (fun s => s.chip.i) (fun s => s.chip.r.get s.chip.i ||| s.chip.sReg ||| s.bus.sum) ∧
  PutsR .rwSSum (fun s => s.chip.i) (fun s => s.chip.sReg ||| s.bus.sum) ∧
  PutsR .rwRS (fun s => s.chip.i) (fun s => s.chip.r.get s.chip.i ||| s.chip.sReg) ∧
  PutsR .rwRSum (fun s => s.chip.i) (fun s => s.chip.r.get s.chip.i ||| s.bus.sum)

/-- R167, R168: the auxiliary writes complete, write sum into R[i-1] and R[i-2] and change nothing else. -/
def Obligations.AuxiliaryWritesBehindWindow : Prop :=
  PutsR .r1Sum (fun s => s.chip.i - 1) (fun s => s.bus.sum) ∧
  PutsR .r2Sum (fun s => s.chip.i - 2) (fun s => s.bus.sum)

/-- R169, R170: MW completes and writes S into M[i] only; CW completes and writes the carry-out into carry only. -/
def Obligations.MwAndCwWrite : Prop :=
  (∀ s, ∃ t, exec .mwS s = .next t ∧ t.chip.m.get s.chip.i = s.chip.sReg ∧
    (∀ k, k ≠ s.chip.i → t.chip.m.get k = s.chip.m.get k) ∧ OnlyM s t) ∧
  (∀ s, ∃ t, exec .cw s = .next t ∧ t.chip.carry = s.bus.cout ∧ OnlyCarry s t)

/-- R171-R173: each value of the SW field completes, writes S and changes nothing else. -/
def Obligations.SwModesWriteS : Prop :=
  (∀ s, ∃ t, exec .swQ s = .next t ∧ t.chip.sReg = s.chip.qReg ∧ OnlyS s t) ∧
  (∀ s, ∃ t, exec .swSum s = .next t ∧ t.chip.sReg = s.bus.sum ∧ OnlyS s t) ∧
  (∀ s, ∃ t, exec .swQSum s = .next t ∧ t.chip.sReg = s.chip.qReg ||| s.bus.sum ∧ OnlyS s t)

/-- R174, R175: QW completes and writes sum into Q; KS completes and writes the tick's keypad sample into Q; neither
changes anything else. -/
def Obligations.QwAndKsWriteQ : Prop :=
  (∀ s, ∃ t, exec .qwSum s = .next t ∧ t.chip.qReg = s.bus.sum ∧ OnlyQ s t) ∧
  (∀ s, ∃ t, exec .ks s = .next t ∧ t.chip.qReg = s.bus.keyQ ∧ OnlyQ s t)

/-- R177, R178: the two ST updates complete, write the triple at i and change nothing else. -/
def Obligations.StUpdatesWriteTriple : Prop :=
  (∀ s, ∃ t, exec .stShift s = .next t ∧ t.chip.st.get s.chip.i = s.bus.sum ∧
    t.chip.st.get (s.chip.i + 1) = s.chip.st.get s.chip.i ∧
    t.chip.st.get (s.chip.i + 2) = s.chip.st.get (s.chip.i + 1) ∧
    (∀ k, k ≠ s.chip.i → k ≠ s.chip.i + 1 → k ≠ s.chip.i + 2 → t.chip.st.get k = s.chip.st.get k) ∧ OnlyST s t) ∧
  (∀ s, ∃ t, exec .stRot s = .next t ∧ t.chip.st.get s.chip.i = s.chip.st.get (s.chip.i + 1) ∧
    t.chip.st.get (s.chip.i + 1) = s.chip.st.get (s.chip.i + 2) ∧
    t.chip.st.get (s.chip.i + 2) = s.chip.st.get s.chip.i ∧
    (∀ k, k ≠ s.chip.i → k ≠ s.chip.i + 1 → k ≠ s.chip.i + 2 → t.chip.st.get k = s.chip.st.get k) ∧ OnlyST s t)

/-- R178, corner case: three rotations at one window offset restore the state. -/
def Obligations.ThreeRotationsRestore : Prop :=
  ∀ s, runOps [.stRot, .stRot, .stRot] s = .next s

/-! The tick -/

/-- R85, R110: a step whose oldest host operation is a calc_step runs the decoded microinstruction: its term sources
by exec on the begun tick, the adder, its write-backs by exec, the end of the tick. A microinstruction of one
micro-operation is exec of it, between the same stages. -/
def Obligations.StepRunsDecodedMicroinstruction : Prop :=
  ∀ s key mode rest f, Fetching s key mode rest f →
    (∀ s1 s2 s3, runOps (f.ops.filter isSource) (beginTick key mode (s.withPending rest)) = .next s1 →
      addStage f.ops s1 = .ok s2 → runOps (f.ops.filter fun i => !isSource i) s2 = .next s3 →
      step s = .next (finishTick s.chip f s3)) ∧
    (∀ s1 flt, runOps (f.ops.filter isSource) (beginTick key mode (s.withPending rest)) = .next s1 →
      addStage f.ops s1 = .error flt → step s = .next ((s.withPending rest).takeFault flt)) ∧
    (∀ i s1 s2, f.ops = [i] → isSource i = true → exec i (beginTick key mode (s.withPending rest)) = .next s1 →
      addStage [i] s1 = .ok s2 → step s = .next (finishTick s.chip f s2)) ∧
    (∀ i s1 s2, f.ops = [i] → isSource i = false → addStage [i] (beginTick key mode (s.withPending rest)) = .ok s1 →
      exec i s1 = .next s2 → step s = .next (finishTick s.chip f s2))

/-- R110, R115, R116: running the micro-operations one after another is the tick of R110 in closed form, in which
the terms and every write are computed from the state at the tick's start. -/
def Obligations.TickIsClosedForm : Prop :=
  ∀ s key mode rest, s.pending = .tick key mode :: rest →
    step s = .next (closedTick key mode (s.withPending rest))

/-- R145, R146, R147: the terms that the adder gets are the ORs of the contributions of the sources that are set. -/
def Obligations.TermsAreOrsOfContributions : Prop :=
  ∀ (ops : Micro) key mode s, ∃ t, runOps (ops.filter isSource) (beginTick key mode s) = .next t ∧
    t.bus.alpha = alphaOf ops s.chip ∧ t.bus.beta = betaOf ops s.chip ∧
    t.bus.gamma = gammaOf ops s.chip (keyEvent s.cfg key s.chip) ∧ t.chip = s.chip

/-- R149: the decimal adder, and what it answers outside the decimal range. -/
def Obligations.DecimalAdder : Prop :=
  (∀ used t, t ≤ 19 → ∃ sum cout, add .decimal used t = .ok (sum, cout) ∧ sum.toNat ≤ 9 ∧
    10 * cout.toNat + sum.toNat = t) ∧
  (∀ t, 20 ≤ t → add .decimal true t = .error (.aluRange t)) ∧
  (∀ t, 20 ≤ t → add .decimal false t = .ok (BitVec.ofNat 4 (t % 10), 1))

/-- R150: the binary adder never faults. -/
def Obligations.BinaryAdder : Prop :=
  ∀ used t, t ≤ 31 → ∃ sum cout, add .binary4 used t = .ok (sum, cout) ∧ 16 * cout.toNat + sum.toNat = t

/-- R149, R151: a fetched microinstruction raises AluRange exactly when the adder is decimal, t is 20 or more, and a
consumer of sum or cout is set. -/
def Obligations.AluRangeExactly : Prop :=
  ∀ s key mode rest f, Fetching s key mode rest f →
    ((∃ t, step s = .next t ∧ t.chip.fault = some ⟨.aluRange (tickTotal s key f), s.chip.i, s.chip.slot⟩) ↔
      s.cfg.adderMode = .decimal ∧ 20 ≤ tickTotal s key f ∧
      ((.rwSum ∈ f.ops ∨ .rwRSSum ∈ f.ops ∨ .rwSSum ∈ f.ops ∨ .rwRSum ∈ f.ops) ∨ .r1Sum ∈ f.ops ∨ .r2Sum ∈ f.ops ∨
        .cw ∈ f.ops ∨ (.swSum ∈ f.ops ∨ .swQSum ∈ f.ops) ∨ .qwSum ∈ f.ops ∨ .stShift ∈ f.ops))

/-- R111, R112, R113: the fetch and decode stages succeed exactly with what the rules hand on. -/
def Obligations.FetchHandsOnExactly : Prop := ∀ s f, fetch s = .ok f ↔ Fetches s f

/-- R30, R31, R111, R112, R113, R119: a tick in the adder's range completes, advances the window modulo 42, and latches what it fetched
and its keypad_event. -/
def Obligations.TickCompletes : Prop :=
  ∀ s key mode rest f, Fetching s key mode rest f → InRange s key f →
    Fetches s f ∧ ∃ t, step s = .next t ∧ t.chip.fault = none ∧ t.pending = rest ∧
      t.chip.i.val = (s.chip.i.val + 1) % 42 ∧ t.chip.ak = f.ak ∧ t.chip.aki = f.aki ∧ t.chip.u = f.u ∧
      t.chip.ua = f.ua ∧ t.chip.keypadEvent = keyEvent s.cfg key s.chip ∧
      ∃ events, t.out = .ticked events (.ok (running s.cfg t.chip))

/-- R160-R168, R176: bank R after a tick, every word of it. -/
def Obligations.BankRAfterTick : Prop :=
  ∀ s key mode rest f, Fetching s key mode rest f → InRange s key f →
    ∃ t, step s = .next t ∧ t.chip.fault = none ∧
      (.rwR3 ∈ f.ops → t.chip.r.get s.chip.i = s.chip.r.get (s.chip.i + 3)) ∧
      (.rwSum ∈ f.ops → t.chip.r.get s.chip.i = tickSum s key f) ∧
      (.rwS ∈ f.ops → t.chip.r.get s.chip.i = s.chip.sReg) ∧
      (.rwRSSum ∈ f.ops → t.chip.r.get s.chip.i = s.chip.r.get s.chip.i ||| s.chip.sReg ||| tickSum s key f) ∧
      (.rwSSum ∈ f.ops → t.chip.r.get s.chip.i = s.chip.sReg ||| tickSum s key f) ∧
      (.rwRS ∈ f.ops → t.chip.r.get s.chip.i = s.chip.r.get s.chip.i ||| s.chip.sReg) ∧
      (.rwRSum ∈ f.ops → t.chip.r.get s.chip.i = s.chip.r.get s.chip.i ||| tickSum s key f) ∧
      ((∀ x ∈ f.ops, x.field ≠ .rw) → t.chip.r.get s.chip.i = s.chip.r.get s.chip.i) ∧
      t.chip.r.get (s.chip.i - 1) =
        (if .r1Sum ∈ f.ops then tickSum s key f else s.chip.r.get (s.chip.i - 1)) ∧
      t.chip.r.get (s.chip.i - 2) =
        (if .r2Sum ∈ f.ops then tickSum s key f else s.chip.r.get (s.chip.i - 2)) ∧
      ∀ j, j ≠ s.chip.i → j ≠ s.chip.i - 1 → j ≠ s.chip.i - 2 → t.chip.r.get j = s.chip.r.get j

/-- R177, R178, R176: bank ST after a tick, every word of it. -/
def Obligations.BankStAfterTick : Prop :=
  ∀ s key mode rest f, Fetching s key mode rest f → InRange s key f →
    ∃ t, step s = .next t ∧ t.chip.fault = none ∧
      (.stShift ∈ f.ops → t.chip.st.get s.chip.i = tickSum s key f ∧
        t.chip.st.get (s.chip.i + 1) = s.chip.st.get s.chip.i ∧
        t.chip.st.get (s.chip.i + 2) = s.chip.st.get (s.chip.i + 1)) ∧
      (.stRot ∈ f.ops → t.chip.st.get s.chip.i = s.chip.st.get (s.chip.i + 1) ∧
        t.chip.st.get (s.chip.i + 1) = s.chip.st.get (s.chip.i + 2) ∧
        t.chip.st.get (s.chip.i + 2) = s.chip.st.get s.chip.i) ∧
      ((∀ x ∈ f.ops, x.field ≠ .stw) → t.chip.st = s.chip.st) ∧
      ∀ j, j ≠ s.chip.i → j ≠ s.chip.i + 1 → j ≠ s.chip.i + 2 → t.chip.st.get j = s.chip.st.get j

/-- R170-R176: S, Q and carry after a tick; a keypad sample wins over QW. -/
def Obligations.ScalarsAfterTick : Prop :=
  ∀ s key mode rest f, Fetching s key mode rest f → InRange s key f →
    ∃ t, step s = .next t ∧ t.chip.fault = none ∧
      t.chip.carry = (if .cw ∈ f.ops then tickCout s key f else s.chip.carry) ∧
      (.swQ ∈ f.ops → t.chip.sReg = s.chip.qReg) ∧
      (.swSum ∈ f.ops → t.chip.sReg = tickSum s key f) ∧
      (.swQSum ∈ f.ops → t.chip.sReg = s.chip.qReg ||| tickSum s key f) ∧
      ((∀ x ∈ f.ops, x.field ≠ .sw) → t.chip.sReg = s.chip.sReg) ∧
      t.chip.qReg = (if .ks ∈ f.ops then keyQ s.cfg key mode s.chip
        else if .qwSum ∈ f.ops then tickSum s key f else s.chip.qReg)

/-- R169, R193, R195: bank M and the FIFO chip after a tick; the FIFO input is M[i] after MW, and the output replaces
M[i] under RING only. -/
def Obligations.BankMAndFifoAfterTick : Prop :=
  ∀ s key mode rest f, Fetching s key mode rest f → InRange s key f →
    ∃ t, step s = .next t ∧ t.chip.fault = none ∧
      t.chip.fifoCycle.val = (s.chip.fifoCycle.val + 1) % 252 ∧
      t.chip.fifoInput = (if .mwS ∈ f.ops then s.chip.sReg else s.chip.m.get s.chip.i) ∧
      t.chip.fifoOutput = s.chip.fifoData.get (s.chip.fifoCycle + 1) ∧
      t.chip.fifoData.get (s.chip.fifoCycle + 1) = t.chip.fifoInput ∧
      (∀ k, k ≠ s.chip.fifoCycle + 1 → t.chip.fifoData.get k = s.chip.fifoData.get k) ∧
      (s.cfg.fifoLink = .ring → t.chip.m.get s.chip.i = t.chip.fifoOutput) ∧
      (s.cfg.fifoLink = .detached → t.chip.m.get s.chip.i = t.chip.fifoInput) ∧
      ∀ j, j ≠ s.chip.i → t.chip.m.get j = s.chip.m.get j

/-- R86: the word 0 adds 0, 0 and 0 and writes no register; the FIFO exchange, the window advance and the display
emission still happen. -/
def Obligations.NopWritesNoRegister : Prop :=
  ∀ s key mode rest f, Fetching s key mode rest f → f.u = 0 →
    f.ops = [] ∧ tickTotal s key f = 0 ∧
    ∃ t, step s = .next t ∧ t.chip.fault = none ∧ t.chip.r = s.chip.r ∧ t.chip.st = s.chip.st ∧
      t.chip.sReg = s.chip.sReg ∧ t.chip.qReg = s.chip.qReg ∧ t.chip.carry = s.chip.carry ∧
      (∀ j, j ≠ s.chip.i → t.chip.m.get j = s.chip.m.get j) ∧
      t.chip.fifoInput = s.chip.m.get s.chip.i ∧ t.chip.fifoCycle = s.chip.fifoCycle + 1 ∧
      t.chip.fifoOutput = s.chip.fifoData.get (s.chip.fifoCycle + 1) ∧
      t.chip.m.get s.chip.i =
        (if s.cfg.fifoLink = .ring then t.chip.fifoOutput else s.chip.m.get s.chip.i) ∧
      t.chip.i = s.chip.i + 1 ∧ (s.chip.i = 41 ↔ (eventsIn t.out).length = 1)

/-- R42, R179: what a tick can write at all, whether it faults or not; the configuration and every byte of the
program store stay. -/
def Obligations.TickFrame : Prop :=
  ∀ s t key mode rest, s.pending = .tick key mode :: rest → step s = .next t →
    (∀ j, j ≠ s.chip.i → j ≠ s.chip.i - 1 → j ≠ s.chip.i - 2 → t.chip.r.get j = s.chip.r.get j) ∧
    (∀ j, j ≠ s.chip.i → t.chip.m.get j = s.chip.m.get j) ∧
    (∀ j, j ≠ s.chip.i → j ≠ s.chip.i + 1 → j ≠ s.chip.i + 2 → t.chip.st.get j = s.chip.st.get j) ∧
    (∀ k, k ≠ s.chip.fifoCycle + 1 → t.chip.fifoData.get k = s.chip.fifoData.get k) ∧
    (∀ k, k ≠ s.chip.slot → t.chip.showDot.get k = s.chip.showDot.get k) ∧
    t.pending = rest ∧ t.cfg = s.cfg ∧ t.prog = s.prog ∧ SameProgram s t

/-! Faults -/

/-- R222: fault entry is precise: a tick that records a fault changes the fault register only, emits nothing, answers
FAULTED, and records the window offset and the slot of the tick; every later tick leaves the state as it is. -/
def Obligations.FaultEntryIsPrecise : Prop :=
  ∀ s t key mode rest r, s.pending = .tick key mode :: rest → s.chip.fault = none → step s = .next t →
    t.chip.fault = some r →
    r.info = [r.cause.info, s.chip.i.val, s.chip.slot.val] ∧ t.chip = { s.chip with fault := some r } ∧
      t.out = .ticked [] (.faulted r) ∧ t.prog = s.prog ∧ t.cfg = s.cfg ∧ t.pending = rest ∧ t.bus = Bus.idle ∧
      ∀ key' mode' rest', rest = .tick key' mode' :: rest' →
        ∃ u, step t = .next u ∧ u.chip = t.chip ∧ u.prog = t.prog ∧ u.cfg = t.cfg

/-- R114: a tick started in a faulted state changes nothing, emits no event and returns FAULTED with the recorded
fault; a step that leaves the faulted state is calc_init. -/
def Obligations.FaultedTickIsStuck : Prop :=
  (∀ s key mode rest r, s.pending = .tick key mode :: rest → s.chip.fault = some r →
    ∃ t, step s = .next t ∧ t.chip = s.chip ∧ t.prog = s.prog ∧ t.cfg = s.cfg ∧ t.bus = s.bus ∧
      t.out = .ticked [] (.faulted r)) ∧
  ∀ s t r, s.chip.fault = some r → step s = .next t → (∀ prog rest, s.pending ≠ .init prog :: rest) →
    t.chip = s.chip

/-- R223: only calc_init clears a recorded fault. -/
def Obligations.OnlyInitClearsFault : Prop :=
  ∀ s t r, s.chip.fault = some r → step s = .next t → t.chip.fault ≠ some r →
    ∃ prog rest, s.pending = .init prog :: rest ∧ t.chip = Chip.reset

/-- R52, R65, R111, R112, R224: the three addressing faults, in the order of their stages; ProgAddr is raised exactly
at i = 0 with the first read of MACRO_SELECT that is out of range, whatever reads come before it. -/
def Obligations.AddressingFaults : Prop :=
  ∀ s key mode rest, s.pending = .tick key mode :: rest → s.chip.fault = none →
    (∀ a, (∃ t, step s = .next t ∧ t.chip.fault = some ⟨.progAddr a, s.chip.i, s.chip.slot⟩) ↔
      s.chip.i = 0 ∧ firstOutOfRange s.cfg.progLen s.prog (macroSelect s.cfg s.chip) = some a) ∧
    (∀ aki, s.chip.i = 0 → Select.run (memRead s.cfg.progLen s.prog) (macroSelect s.cfg s.chip) = .ok aki →
      s.cfg.cmdRom.length ≤ aki →
      ∃ t, step s = .next t ∧ t.chip.fault = some ⟨.macroAddr aki, s.chip.i, s.chip.slot⟩) ∧
    (∀ aki ak, fetchMacro s = .ok (aki, ak) → s.cfg.urom.length ≤ microSelect s.cfg ak s.chip →
      ∃ t, step s = .next t ∧
        t.chip.fault = some ⟨.microAddr (microSelect s.cfg ak s.chip), s.chip.i, s.chip.slot⟩)

/-- R87, R88: under the layout of R81 a fetched word with a bit of 31:28 set, or with STW = 3, raises ReservedField
before any write. -/
def Obligations.ReservedWordFaults : Prop :=
  ∀ s key mode rest aki ak w, s.pending = .tick key mode :: rest → s.chip.fault = none →
    s.cfg.layout = .standard → fetchMacro s = .ok (aki, ak) → s.cfg.urom[microSelect s.cfg ak s.chip]? = some w →
    w.extractLsb' 28 4 ≠ 0 ∨ w.extractLsb' 26 2 = 3 →
    ∃ t, step s = .next t ∧ t.chip = { s.chip with
      fault := some ⟨.reservedField (microSelect s.cfg ak s.chip), s.chip.i, s.chip.slot⟩ }

/-- R87, R88, R91: under every layout a tick raises ReservedField, before any write, exactly when the fetched word has a
bit set that the layout does not name, or STW = 3. A layout as 28 positions is the model's form (log entry 12). -/
def Obligations.ReservedWordFaultsUnderEveryLayout : Prop :=
  ∀ s key mode rest aki ak w, s.pending = .tick key mode :: rest → s.chip.fault = none →
    fetchMacro s = .ok (aki, ak) → s.cfg.urom[microSelect s.cfg ak s.chip]? = some w →
    ((∃ t, step s = .next t ∧ t.chip = { s.chip with
        fault := some ⟨.reservedField (microSelect s.cfg ak s.chip), s.chip.i, s.chip.slot⟩ }) ↔
      ReservedUnder s.cfg.layout w) ∧
    (ReservedUnder s.cfg.layout w ↔
      s.cfg.layout.reservedBitSet w = true ∨ stwField (s.cfg.layout.gather w) = 3)

/-- R111, R112, R113, R256: the macro-instruction changes only at i = 0; a clean tick there latches MACRO_SELECT's
answer and the table's word at it, and every clean tick latches MICRO_SELECT's answer and the table's word at it, a
legal one. -/
def Obligations.MacroLatchHeldInPeriod : Prop :=
  ∀ s t key mode rest, s.pending = .tick key mode :: rest → step s = .next t →
    (s.chip.i ≠ 0 → t.chip.aki = s.chip.aki ∧ t.chip.ak = s.chip.ak) ∧
    (t.chip.fault = none →
      (s.chip.i = 0 → Select.run (memRead s.cfg.progLen s.prog) (macroSelect s.cfg s.chip) = .ok t.chip.aki ∧
        s.cfg.cmdRom[t.chip.aki]? = some t.chip.ak) ∧
      t.chip.ua = microSelect s.cfg t.chip.ak s.chip ∧ s.cfg.urom[t.chip.ua]? = some t.chip.u ∧
      ∃ ops, decode s.cfg.layout t.chip.u = .ok ops)

/-! The FIFO chip -/

/-- R190: one step of the FIFO chip. -/
def Obligations.FifoStepWritesOneCell : Prop :=
  ∀ (c : Chip) (v : Nibble),
    (c.fifoStep v).fifoInput = v ∧ (c.fifoStep v).fifoCycle.val = (c.fifoCycle.val + 1) % 252 ∧
    (c.fifoStep v).fifoOutput = c.fifoData.get (c.fifoStep v).fifoCycle ∧
    (c.fifoStep v).fifoData.get (c.fifoStep v).fifoCycle = v ∧
    (∀ k, k ≠ (c.fifoStep v).fifoCycle → (c.fifoStep v).fifoData.get k = c.fifoData.get k) ∧
    c.fifoStep v =
      { c with
        fifoInput := (c.fifoStep v).fifoInput
        fifoCycle := (c.fifoStep v).fifoCycle
        fifoOutput := (c.fifoStep v).fifoOutput
        fifoData := (c.fifoStep v).fifoData }

/-- R191: a value comes out 252 steps after it went in, and no step in between addresses or changes its cell. -/
def Obligations.FifoDelaysBy252 : Prop :=
  ∀ (c : Chip) (v x : Nibble) (between : List Nibble), between.length = 251 →
    ((between.foldl Chip.fifoStep (c.fifoStep v)).fifoStep x).fifoOutput = v ∧
    ∀ n, 1 ≤ n → n ≤ 251 →
      ((between.take n).foldl Chip.fifoStep (c.fifoStep v)).fifoCycle ≠ (c.fifoStep v).fifoCycle ∧
      ((between.take n).foldl Chip.fifoStep (c.fifoStep v)).fifoData.get (c.fifoStep v).fifoCycle = v

/-- R194: under RING, what leaves M[i] is back in M[i] at the end of the 252nd tick after, and is still there for the
41 ticks that follow, so that the tick at i after them reads it. -/
def Obligations.RingReturnsValueToM : Prop :=
  ∀ s t u v k, s.cfg.fifoLink = .ring → cleanTicks 1 s = some t → cleanTicks 252 t = some u → k ≤ 41 →
    cleanTicks k u = some v → v.chip.m.get s.chip.i = t.chip.fifoInput

/-- R119, R196: the window offset and the FIFO cycle count the clean ticks, modulo 42 and modulo 252, from 0 at
reset; together they repeat every 252 ticks. -/
def Obligations.CountersCountTicks : Prop :=
  ∀ n s t, cleanTicks n s = some t →
    t.chip.i.val = (s.chip.i.val + n) % 42 ∧ t.chip.fifoCycle.val = (s.chip.fifoCycle.val + n) % 252 ∧
    (s.chip = Chip.reset → t.chip.i.val = n % 42 ∧ t.chip.fifoCycle.val = n % 252) ∧
    (t.chip.i = s.chip.i ∧ t.chip.fifoCycle = s.chip.fifoCycle ↔ 252 ∣ n)

/-! Display, keypad and mode -/

/-- R200: the display index of each slot. -/
def Obligations.DisplayIndexOfSlot : Prop :=
  (∀ k : Fin 14, k = 0 ∨ k = 1 → displayIndex k = -1) ∧ ∀ k : Fin 14, 2 ≤ k.val → displayIndex k = (k.val : Int) - 2

/-- R201: a clean tick at i = 41 emits exactly one event, whose dot goes into dot and show_dot[slot], and advances the
slot modulo 14; a clean tick at any other i emits nothing and leaves all three. -/
def Obligations.DisplayAtEndOfPeriod : Prop :=
  ∀ s key mode rest f, Fetching s key mode rest f → InRange s key f →
    ∃ t, step s = .next t ∧ t.chip.fault = none ∧
      (s.chip.i = 41 → eventsIn t.out = [⟨displayIndex s.chip.slot, (displayValue s.cfg s.chip f.ak).1,
          (displayValue s.cfg s.chip f.ak).2⟩] ∧
        t.chip.dot = (displayValue s.cfg s.chip f.ak).2 ∧
        t.chip.showDot.get s.chip.slot = (displayValue s.cfg s.chip f.ak).2 ∧
        (∀ k, k ≠ s.chip.slot → t.chip.showDot.get k = s.chip.showDot.get k) ∧
        t.chip.slot.val = (s.chip.slot.val + 1) % 14) ∧
      (s.chip.i ≠ 41 → eventsIn t.out = [] ∧ t.chip.dot = s.chip.dot ∧ t.chip.showDot = s.chip.showDot ∧
        t.chip.slot = s.chip.slot)

/-- R202: over 42 n clean ticks from reset, n events come out, their indices -1, -1, 0, 1, …, 11 and again. -/
def Obligations.DisplayCadence : Prop :=
  ∀ n s t, s.chip = Chip.reset → cleanTicks (42 * n) s = some t →
    (eventsOf (42 * n) s).map Event.index = (List.range n).map fun k => displayIndex (Fin.ofNat 14 k)

/-- R207: no key is no key event, in every configuration and state. -/
def Obligations.NoKeyNoEvent : Prop := ∀ g c, keyEvent g 0 c = 0

/-- R208: left OPEN, KEY_Q tells every key of the table from no key. -/
def Obligations.FreeKeysDistinct : Prop := ∀ g : Cfg, g.keyQ = .free → KeysDistinct g

/-- R209: the mode reaches a tick only as an argument of KEY_Q, and only where KS is set. R209 is the spec's own choice
(D18, which errs toward proving): the statement bounds what passes through KS and claims nothing more of the chip. -/
def Obligations.ModeReachesOnlyKeypadSample : Prop :=
  ∀ s s' key mode mode' rest f, Fetching s key mode rest f →
    s' = s.withPending (.tick key mode' :: rest) →
    .ks ∉ f.ops ∨ keyQ s.cfg key mode s.chip = keyQ s.cfg key mode' s.chip → step s = step s'

/-- R111, R256: outside i = 0 a tick does not depend on the program store. -/
def Obligations.ProgramStoreReadOnlyAtZero : Prop :=
  ∀ s t m key mode rest, s.pending = .tick key mode :: rest → s.chip.i ≠ 0 → step s = .next t →
    step (s.withProg m) = .next (t.withProg m)

/-! The host's other operations -/

/-- R62: load writes every byte of the store and changes nothing else of the CORE; another length is refused. That a
refused load leaves the CORE as it is is DEDUCED by the model (log entry 18), and so is that a load works in a faulted
state (log entry 15). The premise on the store is the invariant MachineInv.progWf. -/
def Obligations.LoadWritesProgramStore : Prop :=
  ∀ s p rest, s.pending = .load p :: rest → Memory.wf s.prog →
    ∃ t, step s = .next t ∧ t.chip = s.chip ∧ t.cfg = s.cfg ∧ t.bus = s.bus ∧ t.pending = rest ∧
      (p.length = s.cfg.progLen → t.out = .loaded ∧
        (∀ (a : Nat) (h : a < p.length), memRead t.cfg.progLen t.prog a = .ok p[a])) ∧
      (p.length ≠ s.cfg.progLen → t.out = .loadRefused ∧ t.prog = s.prog)

/-- R63: dump returns the PROG_LEN bytes of the store in index order and changes no state; after a load it returns
the loaded array. That both work in a faulted state is DEDUCED by the model (log entry 15). The premise on the store is
the invariant MachineInv.progWf. -/
def Obligations.DumpAfterLoad : Prop :=
  (∀ s rest, s.pending = .dump :: rest →
    ∃ t bytes, step s = .next t ∧ t.out = .dumped bytes ∧ bytes.length = s.cfg.progLen ∧
      (∀ (a : Nat) (h : a < bytes.length), memRead s.cfg.progLen s.prog a = .ok bytes[a]) ∧
      t.chip = s.chip ∧ t.prog = s.prog ∧ t.cfg = s.cfg ∧ t.bus = s.bus ∧ t.pending = rest) ∧
  ∀ s p rest, s.pending = .load p :: .dump :: rest → Memory.wf s.prog → p.length = s.cfg.progLen →
    ∃ t u, step s = .next t ∧ step t = .next u ∧ u.out = .dumped p

/-- R65: MemRead returns the byte below PROG_LEN, and raises ProgAddr at every other address. -/
def Obligations.MemReadBounds : Prop :=
  ∀ n m a, (a < n → memRead n m a = .ok (Memory.read m a)) ∧ (n ≤ a → memRead n m a = .error (.progAddr a))

/-- R250: calc_init sets every element of the CORE, and the program store to the given program or to PROG_INIT; a
program of another length is refused; no other operation clears a fault. That a refused calc_init leaves the CORE and a
recorded fault as they are is DEDUCED by the model (log entry 18). -/
def Obligations.CalcInitResets : Prop :=
  (∀ s prog rest, s.pending = .init prog :: rest →
    ∃ t, step s = .next t ∧ t.cfg = s.cfg ∧ t.pending = rest ∧
      (prog = none → IsReset t.chip ∧ t.prog = s.cfg.progInit ∧ t.out = .initDone) ∧
      (∀ p, prog = some p → p.length = s.cfg.progLen → IsReset t.chip ∧ t.out = .initDone ∧
        ∀ (a : Nat) (h : a < p.length), memRead t.cfg.progLen t.prog a = .ok p[a]) ∧
      (∀ p, prog = some p → p.length ≠ s.cfg.progLen →
        t.chip = s.chip ∧ t.prog = s.prog ∧ t.out = .initRefused)) ∧
  ∀ s t, s.chip.fault ≠ none → step s = .next t → t.chip.fault = none →
    ∃ prog rest, s.pending = .init prog :: rest

/-- R250: the CORE after reset, element by element, with PROG_INIT in the program store. -/
def Obligations.ResetClearsCore : Prop :=
  IsReset State.reset.chip ∧
  ∀ a, Memory.read State.reset.prog a = Memory.read State.reset.cfg.progInit a

/-- R40, R39: no operation writes the configuration, and only calc_init and load write the program store. -/
def Obligations.StepKeepsConfiguration : Prop :=
  ∀ s t, step s = .next t → t.cfg = s.cfg ∧
    ((∀ p rest, s.pending ≠ .init p :: rest) → (∀ p rest, s.pending ≠ .load p :: rest) → t.prog = s.prog)

/-- R110, R121: every step answers a next state; there is no fault outcome and no refusal. -/
def Obligations.EveryStepAnswers : Prop := ∀ s, ∃ t, step s = .next t

/-- R232: with no host operation to come, the machine holds its state. -/
def Obligations.NoCallHoldsState : Prop := ∀ s, s.pending = [] → step s = .next s

/-- R41: between ticks nothing is left in the values of a tick: a tick from an unfaulted state does not depend on
them, and leaves them idle. -/
def Obligations.BusCarriesNothing : Prop :=
  ∀ s t key mode rest b, s.pending = .tick key mode :: rest → s.chip.fault = none → step s = .next t →
    step (s.withBus b) = .next t ∧ t.bus = Bus.idle

/-! The invariant -/

/-- Every step keeps the invariant: the program store's canonical form and bounds, the latched words and indices, the
recorded fault, the two counters in step. -/
def Obligations.StepKeepsInv : Prop := ∀ s t, MachineInv s → step s = .next t → MachineInv t

/-- The state after reset meets the invariant. -/
def Obligations.ResetMeetsInv : Prop := MachineInv State.reset
end

