-- ==== Sys2Proof/Laws/Exec.lean ====
section
/-! SUPPORT. What the shared operations can do, one inversion lemma each: a micro-operation, a list of them, the adder
stage, the fetch stages, a tick, a host operation. -/

namespace Sys2Proof.Machine

/-- The values of a tick in progress with contributions ORed into the three terms. -/
def Bus.joined (b : Bus) (x y : Nibble) (z : Bit) : Bus :=
  { b with alpha := b.alpha ||| x, beta := b.beta ||| y, gamma := b.gamma ||| z }

@[simp] theorem Bus.joined_ke (b : Bus) (x y : Nibble) (z : Bit) : (b.joined x y z).ke = b.ke := rfl
@[simp] theorem Bus.joined_keyQ (b : Bus) (x y : Nibble) (z : Bit) : (b.joined x y z).keyQ = b.keyQ := rfl

theorem Bus.joined_joined (b : Bus) (x y x' y' : Nibble) (z z' : Bit) :
    (b.joined x y z).joined x' y' z' = b.joined (x ||| x') (y ||| y') (z ||| z') := by
  simp [Bus.joined, BitVec.or_assoc]

theorem Bus.joined_zero (b : Bus) : b.joined 0 0 0 = b := by simp [Bus.joined]

/-- The CORE with other values in the registers that a write-back can write (R116). -/
def Chip.rewritten (c d : Chip) : Chip :=
  { c with r := d.r, m := d.m, st := d.st, sReg := d.sReg, qReg := d.qReg, carry := d.carry }

theorem Chip.rewritten_self (c : Chip) : c.rewritten c = c := rfl
theorem Chip.rewritten_rewritten (c d e : Chip) : (c.rewritten d).rewritten e = c.rewritten e := rfl

theorem State.orAlpha_eq (s : State) (v : Nibble) : s.orAlpha v = s.withBus (s.bus.joined v 0 0) := by
  simp [State.orAlpha, Bus.joined]

theorem State.orBeta_eq (s : State) (v : Nibble) : s.orBeta v = s.withBus (s.bus.joined 0 v 0) := by
  simp [State.orBeta, Bus.joined]

theorem State.orGamma_eq (s : State) (b : Bit) : s.orGamma b = s.withBus (s.bus.joined 0 0 b) := by
  simp [State.orGamma, Bus.joined]

/-- A term source only ORs into the terms. -/
theorem exec_source {i : Instr} (h : isSource i = true) (s : State) :
    ∃ x y z, exec i s = .next (s.withBus (s.bus.joined x y z)) := by
  cases i <;> first
    | exact absurd h (by decide)
    | exact ⟨_, 0, 0, congrArg Host.Outcome.next (State.orAlpha_eq s _)⟩
    | exact ⟨0, _, 0, congrArg Host.Outcome.next (State.orBeta_eq s _)⟩
    | exact ⟨0, 0, _, congrArg Host.Outcome.next (State.orGamma_eq s _)⟩

/-- A write-back only writes R, M, ST, S, Q or carry. -/
theorem exec_write {i : Instr} (h : isSource i = false) (s : State) :
    ∃ d, exec i s = .next (s.withChip (s.chip.rewritten d)) := by
  cases i <;> first
    | exact absurd h (by decide)
    | exact ⟨s.chip.writeR _ _, rfl⟩
    | exact ⟨s.chip.writeM _ _, rfl⟩
    | exact ⟨s.chip.setS s.chip.qReg, rfl⟩
    | exact ⟨s.chip.setS s.bus.sum, rfl⟩
    | exact ⟨s.chip.setS (s.chip.qReg ||| s.bus.sum), rfl⟩
    | exact ⟨s.chip.setQ s.bus.sum, rfl⟩
    | exact ⟨s.chip.setQ s.bus.keyQ, rfl⟩
    | exact ⟨s.chip.setCarry s.bus.cout, rfl⟩
    | exact ⟨s.chip.writeTriple _ _ _, rfl⟩

/-- Every micro-operation completes. -/
theorem exec_next (i : Instr) (s : State) : ∃ t, exec i s = .next t := by
  cases h : isSource i
  · obtain ⟨d, e⟩ := exec_write h s; exact ⟨_, e⟩
  · obtain ⟨x, y, z, e⟩ := exec_source h s; exact ⟨_, e⟩

theorem runOps_cons {i : Instr} {s t : State} (h : exec i s = .next t) (ops : Micro) :
    runOps (i :: ops) s = runOps ops t := by simp only [runOps, h]

/-- A list of term sources only ORs into the terms. -/
theorem runOps_sources {ops : Micro} (h : ∀ i ∈ ops, isSource i = true) (s : State) :
    ∃ x y z, runOps ops s = .next (s.withBus (s.bus.joined x y z)) := by
  induction ops generalizing s with
  | nil => exact ⟨0, 0, 0, by rw [Bus.joined_zero]; rfl⟩
  | cons i ops ih =>
    obtain ⟨x, y, z, e⟩ := exec_source (h i (by simp)) s
    obtain ⟨x', y', z', e'⟩ := ih (fun j hj => h j (by simp [hj])) (s.withBus (s.bus.joined x y z))
    exact ⟨x ||| x', y ||| y', z ||| z', by rw [runOps_cons e, e', ← Bus.joined_joined]; rfl⟩

/-- A list of write-backs only writes R, M, ST, S, Q or carry. -/
theorem runOps_writes {ops : Micro} (h : ∀ i ∈ ops, isSource i = false) (s : State) :
    ∃ d, runOps ops s = .next (s.withChip (s.chip.rewritten d)) := by
  induction ops generalizing s with
  | nil => exact ⟨s.chip, rfl⟩
  | cons i ops ih =>
    obtain ⟨d, e⟩ := exec_write (h i (by simp)) s
    obtain ⟨d', e'⟩ := ih (fun j hj => h j (by simp [hj])) (s.withChip (s.chip.rewritten d))
    exact ⟨d', by rw [runOps_cons e, e']; rfl⟩

/-- The adder stage sets sum and cout, or raises AluRange with the tick's t. -/
theorem addStage_cases (ops : Micro) (s : State) :
    (∃ sum cout, add s.cfg.adderMode (usesSum ops) s.bus.total = .ok (sum, cout) ∧
      addStage ops s = .ok (s.withBus { s.bus with sum := sum, cout := cout })) ∨
    (s.cfg.adderMode = .decimal ∧ usesSum ops = true ∧ 20 ≤ s.bus.total ∧
      addStage ops s = .error (.aluRange s.bus.total)) := by
  unfold addStage add addDec
  cases s.cfg.adderMode
  · by_cases h : s.bus.total ≤ 19
    · refine .inl ⟨BitVec.ofNat 4 (s.bus.total % 10), BitVec.ofNat 1 (s.bus.total / 10), ?_, ?_⟩ <;>
        simp only [if_pos h]
    · cases hu : usesSum ops
      · refine .inl ⟨BitVec.ofNat 4 (s.bus.total % 10), 1, ?_, ?_⟩ <;> simp [if_neg h]
      · exact .inr ⟨rfl, rfl, by omega, by simp [if_neg h]⟩
  · exact .inl ⟨_, _, rfl, rfl⟩

/-- MACRO_SELECT can only fault on a read out of range (R65, R224). -/
theorem Select.run_error {n : Nat} {m : Memory} {q : Select} {f : Fault}
    (h : Select.run (memRead n m) q = .error f) : ∃ a, f = .progAddr a ∧ n ≤ a := by
  induction q with
  | done k => simp [Select.run] at h
  | read a k ih =>
    simp only [Select.run, memRead] at h
    split at h
    · rename_i g hg
      split at hg
      · cases hg
      · cases hg; cases h; exact ⟨a, rfl, by omega⟩
    · exact ih _ h

/-- MACRO_SELECT faults exactly with its first read out of range (R65, R224). -/
theorem Select.run_error_iff {n : Nat} {m : Memory} {q : Select} {f : Fault} :
    Select.run (memRead n m) q = .error f ↔ ∃ a, Safety.firstOutOfRange n m q = some a ∧ f = .progAddr a := by
  induction q with
  | done k => simp [Select.run, Safety.firstOutOfRange]
  | read a k ih =>
    by_cases h : a < n
    · simp [Select.run, Safety.firstOutOfRange, memRead, h, ih]
    · simp [Select.run, Safety.firstOutOfRange, memRead, h, eq_comm]

/-- What FetchMacro answers (R111). -/
theorem fetchMacro_cases (s : State) :
    (s.chip.i ≠ 0 ∧ fetchMacro s = .ok (s.chip.aki, s.chip.ak)) ∨
    (s.chip.i = 0 ∧ ∃ aki ak, s.cfg.cmdRom[aki]? = some ak ∧ fetchMacro s = .ok (aki, ak)) ∨
    (s.chip.i = 0 ∧ ∃ a, s.cfg.progLen ≤ a ∧ fetchMacro s = .error (.progAddr a)) ∨
    (s.chip.i = 0 ∧ ∃ aki, s.cfg.cmdRom.length ≤ aki ∧ fetchMacro s = .error (.macroAddr aki)) := by
  unfold fetchMacro
  by_cases h : s.chip.i = 0
  · simp only [if_pos h]
    cases hr : Select.run (memRead s.cfg.progLen s.prog) (macroSelect s.cfg s.chip) with
    | error f =>
      obtain ⟨a, rfl, ha⟩ := Select.run_error hr
      exact .inr (.inr (.inl ⟨h, a, ha, rfl⟩))
    | ok aki =>
      cases hc : s.cfg.cmdRom[aki]? with
      | none => exact .inr (.inr (.inr ⟨h, aki, by simpa using hc, by simp only [hc]⟩))
      | some ak => exact .inr (.inl ⟨h, aki, ak, hc, by simp only [hc]⟩)
  · exact .inl ⟨h, if_neg h⟩

/-- What the fetch stages hand on (R111-R113): the macro word, the microinstruction word at its index, its decoding. -/
theorem fetch_ok {s : State} {f : Fetched} (h : fetch s = .ok f) :
    fetchMacro s = .ok (f.aki, f.ak) ∧ f.ua = microSelect s.cfg f.ak s.chip ∧ s.cfg.urom[f.ua]? = some f.u ∧
      decode s.cfg.layout f.u = .ok f.ops := by
  unfold fetch at h
  split at h
  · cases h
  · rename_i aki ak hm
    split at h
    · cases h
    · rename_i ua w hu
      split at h
      · cases h
      · rename_i ops hd
        cases h
        unfold fetchMicro at hu
        split at hu
        · cases hu
        · rename_i w' hw
          cases hu
          unfold decodeStage at hd
          split at hd
          · cases hd
          · rename_i ops' ho
            cases hd
            exact ⟨hm, rfl, hw, ho⟩

/-- Which faults the fetch stages raise (R220, R221). -/
theorem fetch_error {s : State} {flt : Fault} (h : fetch s = .error flt) :
    (∃ a, flt = .progAddr a ∧ s.cfg.progLen ≤ a ∧ s.chip.i = 0) ∨
    (∃ aki, flt = .macroAddr aki ∧ s.cfg.cmdRom.length ≤ aki ∧ s.chip.i = 0) ∨
    (∃ ua, flt = .microAddr ua ∧ s.cfg.urom.length ≤ ua) ∨
    (∃ ua, flt = .reservedField ua ∧ ua < s.cfg.urom.length) := by
  unfold fetch at h
  split at h
  · rename_i g hm
    cases h
    rcases fetchMacro_cases s with ⟨_, e⟩ | ⟨_, _, _, _, e⟩ | ⟨h0, a, ha, e⟩ | ⟨h0, a, ha, e⟩ <;>
      rw [hm] at e <;> cases e
    · exact .inl ⟨a, rfl, ha, h0⟩
    · exact .inr (.inl ⟨a, rfl, ha, h0⟩)
  · split at h
    · rename_i g hu
      cases h
      unfold fetchMicro at hu
      split at hu
      · rename_i hw
        cases hu
        exact .inr (.inr (.inl ⟨_, rfl, by simpa using hw⟩))
      · cases hu
    · rename_i ua w hu
      split at h
      · rename_i g hd
        cases h
        unfold decodeStage at hd
        split at hd
        · cases hd
          unfold fetchMicro at hu
          split at hu
          · cases hu
          · rename_i w' hw
            cases hu
            exact .inr (.inr (.inr ⟨_, rfl, (List.getElem?_eq_some_iff.1 hw).1⟩))
        · cases hd
      · cases h

/-- What the rest of a tick can do once its microinstruction is decoded: AluRange, or the write-back and the end. -/
theorem runMicro_cases (f : Fetched) (key : Byte) (mode : AngularMode) (s : State) :
    ∃ x y z, runOps (f.ops.filter isSource) (beginTick key mode s) =
        .next ((beginTick key mode s).withBus ((beginTick key mode s).bus.joined x y z)) ∧
      ((s.cfg.adderMode = .decimal ∧ usesSum f.ops = true ∧
          20 ≤ ((beginTick key mode s).bus.joined x y z).total ∧
          runMicro f key mode s =
            .next (s.takeFault (.aluRange ((beginTick key mode s).bus.joined x y z).total))) ∨
        ∃ sum cout d,
          add s.cfg.adderMode (usesSum f.ops) ((beginTick key mode s).bus.joined x y z).total = .ok (sum, cout) ∧
          runOps (f.ops.filter fun i => !isSource i)
              ((beginTick key mode s).withBus
                { (beginTick key mode s).bus.joined x y z with sum := sum, cout := cout }) =
            .next (((beginTick key mode s).withBus
                { (beginTick key mode s).bus.joined x y z with sum := sum, cout := cout }).withChip
              (s.chip.rewritten d)) ∧
          runMicro f key mode s =
            .next (finishTick s.chip f
              (((beginTick key mode s).withBus
                { (beginTick key mode s).bus.joined x y z with sum := sum, cout := cout }).withChip
                (s.chip.rewritten d)))) := by
  obtain ⟨x, y, z, e⟩ := runOps_sources (ops := f.ops.filter isSource)
    (fun i hi => (List.mem_filter.1 hi).2) (beginTick key mode s)
  refine ⟨x, y, z, e, ?_⟩
  rcases addStage_cases f.ops ((beginTick key mode s).withBus ((beginTick key mode s).bus.joined x y z)) with
    ⟨sum, cout, ha, hs⟩ | ⟨hd, hu, ht, hs⟩
  · obtain ⟨d, ew⟩ := runOps_writes (ops := f.ops.filter fun i => !isSource i)
      (fun i hi => by simpa using (List.mem_filter.1 hi).2)
      ((beginTick key mode s).withBus { (beginTick key mode s).bus.joined x y z with sum := sum, cout := cout })
    refine .inr ⟨sum, cout, d, ha, ew, ?_⟩
    unfold runMicro
    simp only [e, hs]
    exact congrArg (fun o => match o with
      | Host.Outcome.next s3 => Host.Outcome.next (finishTick s.chip f s3)
      | .fault r => .fault r
      | .refused r => .refused r) ew
  · refine .inl ⟨hd, hu, ht, ?_⟩
    unfold runMicro
    simp only [e, hs]
    rfl

/-- What a tick can do (R110, R114, R222). -/
theorem calcStep_cases (key : Byte) (mode : AngularMode) (s : State) :
    (∃ r, s.chip.fault = some r ∧ calcStep key mode s = .next (s.withOut (.ticked [] (.faulted r)))) ∨
    (s.chip.fault = none ∧ ∃ flt, fetch s = .error flt ∧ calcStep key mode s = .next (s.takeFault flt)) ∨
    (s.chip.fault = none ∧ ∃ f, fetch s = .ok f ∧ calcStep key mode s = runMicro f key mode s) := by
  unfold calcStep
  cases s.chip.fault with
  | some r => exact .inl ⟨r, rfl, rfl⟩
  | none =>
    cases hf : fetch s with
    | error flt => exact .inr (.inl ⟨rfl, flt, rfl, rfl⟩)
    | ok f => exact .inr (.inr ⟨rfl, f, rfl, rfl⟩)

/-- What a step can do (R211, R232). -/
theorem step_cases (s : State) :
    (s.pending = [] ∧ step s = .next s) ∨
    ∃ op rest, s.pending = op :: rest ∧ step s = hostStep op (s.withPending rest) := by
  unfold step
  cases s.pending with
  | nil => exact .inl ⟨rfl, rfl⟩
  | cons op rest => exact .inr ⟨op, rest, rfl, rfl⟩

/-- The fetch stages read neither the host operations to come nor the values of a tick in progress. -/
theorem fetch_withPending (s : State) (ops : List HostOp) : fetch (s.withPending ops) = fetch s := rfl

/-- A tick that runs clean adds one to the window offset, and keeps the configuration and the program store. -/
theorem finishTick_frame (start : Chip) (f : Fetched) (s : State) :
    (finishTick start f s).cfg = s.cfg ∧ (finishTick start f s).prog = s.prog ∧
      (finishTick start f s).pending = s.pending ∧ (finishTick start f s).bus = Bus.idle :=
  ⟨rfl, rfl, rfl, rfl⟩

end Sys2Proof.Machine
end

