-- ==== Sys2Proof/Laws/Memory.lean ====
section
/-! SUPPORT. The laws of the program store: read after write, and that every operation keeps the canonical form and
the bound on its addresses. -/

namespace Sys2Proof.Machine

/-- An unlisted address reads 0. -/
theorem Memory.read_eq_zero {m : Memory} {a : Nat} (h : ∀ x ∈ m, x.1 ≠ a) : Memory.read m a = 0 := by
  induction m with
  | nil => rfl
  | cons x m ih =>
    simp only [Memory.read, if_neg (h x (by simp))]
    exact ih fun y hy => h y (by simp [hy])

/-- Read after write: the byte written at its address, the old byte at every other one. -/
theorem Memory.read_write {m : Memory} (h : Memory.wf m) (a : Nat) (v : Byte) (b : Nat) :
    Memory.read (Memory.write m a v) b = if b = a then v else Memory.read m b := by
  induction m with
  | nil =>
    simp only [Memory.write, Memory.read]
    split
    · rename_i hv; simp [Memory.read, hv]
    · by_cases hb : b = a
      · simp [Memory.read, hb]
      · simp [Memory.read, hb, Ne.symm hb]
  | cons x m ih =>
    obtain ⟨k, w⟩ := x
    have hm : Memory.wf m := ⟨h.1.tail, fun y hy => h.2 y (by simp [hy])⟩
    have above : ∀ y ∈ m, k < y.1 := (List.pairwise_cons.1 h.1).1
    simp only [Memory.write]
    split
    · rename_i hlt
      have hz : ∀ y ∈ (k, w) :: m, y.1 ≠ a := by
        intro y hy
        rcases List.mem_cons.1 hy with rfl | hy
        · exact Nat.ne_of_gt hlt
        · exact Nat.ne_of_gt (Nat.lt_trans hlt (above y hy))
      split
      · rename_i hv
        split
        · subst v; subst b; exact Memory.read_eq_zero hz
        · rfl
      · simp [Memory.read, eq_comm]
    · split
      · subst k
        split
        · split
          · subst v; subst b; exact Memory.read_eq_zero fun y hy => Nat.ne_of_gt (above y hy)
          · rename_i hb; simp [Memory.read, Ne.symm hb]
        · by_cases hb : b = a
          · simp [Memory.read, hb]
          · simp [Memory.read, hb, Ne.symm hb]
      · rename_i h2
        simp only [Memory.read]
        by_cases hb : k = b
        · subst hb; simp [Ne.symm h2]
        · simp [hb, ih hm]

/-- What a write leaves in the list: old entries, and the new one unless its byte is 0. -/
theorem Memory.mem_write {m : Memory} {a : Nat} {v : Byte} {x : Host.Cell} (hx : x ∈ Memory.write m a v) :
    x ∈ m ∨ (x = (a, v) ∧ v ≠ 0) := by
  induction m with
  | nil => simp only [Memory.write] at hx; split at hx <;> simp_all
  | cons y m ih =>
    obtain ⟨k, w⟩ := y
    simp only [Memory.write] at hx
    split at hx
    · split at hx <;> simp_all; tauto
    · split at hx
      · split at hx <;> simp_all; tauto
      · rcases List.mem_cons.1 hx with rfl | hx
        · simp
        · rcases ih hx with h | h
          · exact .inl (List.mem_cons_of_mem _ h)
          · exact .inr h

theorem Memory.write_wf {m : Memory} (h : Memory.wf m) (a : Nat) (v : Byte) : Memory.wf (Memory.write m a v) := by
  refine ⟨?_, fun x hx => ?_⟩
  · induction m with
    | nil => simp only [Memory.write]; split <;> simp
    | cons y m ih =>
      obtain ⟨k, w⟩ := y
      have hm : Memory.wf m := ⟨h.1.tail, fun y hy => h.2 y (by simp [hy])⟩
      have above : ∀ y ∈ m, k < y.1 := (List.pairwise_cons.1 h.1).1
      simp only [Memory.write]
      split
      · rename_i hlt
        split
        · exact h.1
        · refine List.pairwise_cons.2 ⟨fun y hy => ?_, h.1⟩
          rcases List.mem_cons.1 hy with rfl | hy
          · exact hlt
          · exact Nat.lt_trans hlt (above y hy)
      · split
        · split
          · exact hm.1
          · exact List.pairwise_cons.2 ⟨above, hm.1⟩
        · refine List.pairwise_cons.2 ⟨fun y hy => ?_, ih hm⟩
          rcases Memory.mem_write hy with hy | ⟨rfl, -⟩
          · exact above y hy
          · show k < a; omega
  · rcases Memory.mem_write hx with hx | ⟨rfl, hv⟩
    · exact h.2 x hx
    · exact hv

theorem Memory.write_below {m : Memory} {n : Nat} (h : Memory.below m n) {a : Nat} (ha : a < n) (v : Byte) :
    Memory.below (Memory.write m a v) n := by
  intro x hx
  rcases Memory.mem_write hx with hx | ⟨rfl, -⟩
  · exact h x hx
  · exact ha

theorem Memory.writeFrom_wf (p : List Byte) {m : Memory} (h : Memory.wf m) (a : Nat) :
    Memory.wf (Memory.writeFrom m a p) := by
  induction p generalizing m a with
  | nil => exact h
  | cons b p ih => exact ih (Memory.write_wf h a b) (a + 1)

theorem Memory.writeFrom_below (p : List Byte) {m : Memory} {n : Nat} (h : Memory.below m n) {a : Nat}
    (ha : a + p.length ≤ n) : Memory.below (Memory.writeFrom m a p) n := by
  induction p generalizing m a with
  | nil => exact h
  | cons b p ih =>
    simp only [List.length_cons] at ha
    exact ih (Memory.write_below h (by omega) b) (by omega)

/-- Reading after an array of bytes is written from `a` on. -/
theorem Memory.read_writeFrom (p : List Byte) {m : Memory} (h : Memory.wf m) (a b : Nat) :
    Memory.read (Memory.writeFrom m a p) b =
      if a ≤ b then (p[b - a]?).getD (Memory.read m b) else Memory.read m b := by
  induction p generalizing m a with
  | nil => simp [Memory.writeFrom]
  | cons x p ih =>
    simp only [Memory.writeFrom]
    rw [ih (Memory.write_wf h a x) (a + 1), Memory.read_write h]
    by_cases h1 : b = a
    · subst h1; simp
    · by_cases h2 : a ≤ b
      · obtain ⟨d, rfl⟩ : ∃ d, b = a + 1 + d := ⟨b - a - 1, by omega⟩
        have e : a + 1 + d - a = d + 1 := by omega
        simp [h1, h2, e]
      · simp [h1, h2, show ¬ a + 1 ≤ b by omega]

theorem Memory.ofBytes_wf (p : List Byte) : Memory.wf (Memory.ofBytes p) :=
  Memory.writeFrom_wf p (by simp [Memory.wf]) 0

theorem Memory.ofBytes_below {p : List Byte} {n : Nat} (h : p.length ≤ n) : Memory.below (Memory.ofBytes p) n :=
  Memory.writeFrom_below p (by simp [Memory.below]) (by omega)

theorem State.reset_prog_wf : Memory.wf State.reset.prog := ⟨List.Pairwise.nil, fun _ h => nomatch h⟩

end Sys2Proof.Machine
end

