-- ==== Sys2Proof/Laws/State.lean ====
section
/-! SUPPORT. One lemma per field per update of State, of the CORE and of the values of a tick in progress, each true
by rfl, so that no proof unfolds a record update. -/

namespace Sys2Proof.Machine

/-! Chip.writeR -/

@[simp] theorem Chip.writeR_r (x : Chip) (j : Fin 42) (v : Nibble) : (x.writeR j v).r = x.r.set j.val v j.isLt := rfl
@[simp] theorem Chip.writeR_m (x : Chip) (j : Fin 42) (v : Nibble) : (x.writeR j v).m = x.m := rfl
@[simp] theorem Chip.writeR_st (x : Chip) (j : Fin 42) (v : Nibble) : (x.writeR j v).st = x.st := rfl
@[simp] theorem Chip.writeR_i (x : Chip) (j : Fin 42) (v : Nibble) : (x.writeR j v).i = x.i := rfl
@[simp] theorem Chip.writeR_sReg (x : Chip) (j : Fin 42) (v : Nibble) : (x.writeR j v).sReg = x.sReg := rfl
@[simp] theorem Chip.writeR_qReg (x : Chip) (j : Fin 42) (v : Nibble) : (x.writeR j v).qReg = x.qReg := rfl
@[simp] theorem Chip.writeR_carry (x : Chip) (j : Fin 42) (v : Nibble) : (x.writeR j v).carry = x.carry := rfl
@[simp] theorem Chip.writeR_keypadEvent (x : Chip) (j : Fin 42) (v : Nibble) : (x.writeR j v).keypadEvent = x.keypadEvent := rfl
@[simp] theorem Chip.writeR_ak (x : Chip) (j : Fin 42) (v : Nibble) : (x.writeR j v).ak = x.ak := rfl
@[simp] theorem Chip.writeR_aki (x : Chip) (j : Fin 42) (v : Nibble) : (x.writeR j v).aki = x.aki := rfl
@[simp] theorem Chip.writeR_u (x : Chip) (j : Fin 42) (v : Nibble) : (x.writeR j v).u = x.u := rfl
@[simp] theorem Chip.writeR_ua (x : Chip) (j : Fin 42) (v : Nibble) : (x.writeR j v).ua = x.ua := rfl
@[simp] theorem Chip.writeR_dot (x : Chip) (j : Fin 42) (v : Nibble) : (x.writeR j v).dot = x.dot := rfl
@[simp] theorem Chip.writeR_showDot (x : Chip) (j : Fin 42) (v : Nibble) : (x.writeR j v).showDot = x.showDot := rfl
@[simp] theorem Chip.writeR_slot (x : Chip) (j : Fin 42) (v : Nibble) : (x.writeR j v).slot = x.slot := rfl
@[simp] theorem Chip.writeR_fault (x : Chip) (j : Fin 42) (v : Nibble) : (x.writeR j v).fault = x.fault := rfl
@[simp] theorem Chip.writeR_fifoData (x : Chip) (j : Fin 42) (v : Nibble) : (x.writeR j v).fifoData = x.fifoData := rfl
@[simp] theorem Chip.writeR_fifoCycle (x : Chip) (j : Fin 42) (v : Nibble) : (x.writeR j v).fifoCycle = x.fifoCycle := rfl
@[simp] theorem Chip.writeR_fifoInput (x : Chip) (j : Fin 42) (v : Nibble) : (x.writeR j v).fifoInput = x.fifoInput := rfl
@[simp] theorem Chip.writeR_fifoOutput (x : Chip) (j : Fin 42) (v : Nibble) : (x.writeR j v).fifoOutput = x.fifoOutput := rfl

/-! Chip.writeM -/

@[simp] theorem Chip.writeM_r (x : Chip) (j : Fin 42) (v : Nibble) : (x.writeM j v).r = x.r := rfl
@[simp] theorem Chip.writeM_m (x : Chip) (j : Fin 42) (v : Nibble) : (x.writeM j v).m = x.m.set j.val v j.isLt := rfl
@[simp] theorem Chip.writeM_st (x : Chip) (j : Fin 42) (v : Nibble) : (x.writeM j v).st = x.st := rfl
@[simp] theorem Chip.writeM_i (x : Chip) (j : Fin 42) (v : Nibble) : (x.writeM j v).i = x.i := rfl
@[simp] theorem Chip.writeM_sReg (x : Chip) (j : Fin 42) (v : Nibble) : (x.writeM j v).sReg = x.sReg := rfl
@[simp] theorem Chip.writeM_qReg (x : Chip) (j : Fin 42) (v : Nibble) : (x.writeM j v).qReg = x.qReg := rfl
@[simp] theorem Chip.writeM_carry (x : Chip) (j : Fin 42) (v : Nibble) : (x.writeM j v).carry = x.carry := rfl
@[simp] theorem Chip.writeM_keypadEvent (x : Chip) (j : Fin 42) (v : Nibble) : (x.writeM j v).keypadEvent = x.keypadEvent := rfl
@[simp] theorem Chip.writeM_ak (x : Chip) (j : Fin 42) (v : Nibble) : (x.writeM j v).ak = x.ak := rfl
@[simp] theorem Chip.writeM_aki (x : Chip) (j : Fin 42) (v : Nibble) : (x.writeM j v).aki = x.aki := rfl
@[simp] theorem Chip.writeM_u (x : Chip) (j : Fin 42) (v : Nibble) : (x.writeM j v).u = x.u := rfl
@[simp] theorem Chip.writeM_ua (x : Chip) (j : Fin 42) (v : Nibble) : (x.writeM j v).ua = x.ua := rfl
@[simp] theorem Chip.writeM_dot (x : Chip) (j : Fin 42) (v : Nibble) : (x.writeM j v).dot = x.dot := rfl
@[simp] theorem Chip.writeM_showDot (x : Chip) (j : Fin 42) (v : Nibble) : (x.writeM j v).showDot = x.showDot := rfl
@[simp] theorem Chip.writeM_slot (x : Chip) (j : Fin 42) (v : Nibble) : (x.writeM j v).slot = x.slot := rfl
@[simp] theorem Chip.writeM_fault (x : Chip) (j : Fin 42) (v : Nibble) : (x.writeM j v).fault = x.fault := rfl
@[simp] theorem Chip.writeM_fifoData (x : Chip) (j : Fin 42) (v : Nibble) : (x.writeM j v).fifoData = x.fifoData := rfl
@[simp] theorem Chip.writeM_fifoCycle (x : Chip) (j : Fin 42) (v : Nibble) : (x.writeM j v).fifoCycle = x.fifoCycle := rfl
@[simp] theorem Chip.writeM_fifoInput (x : Chip) (j : Fin 42) (v : Nibble) : (x.writeM j v).fifoInput = x.fifoInput := rfl
@[simp] theorem Chip.writeM_fifoOutput (x : Chip) (j : Fin 42) (v : Nibble) : (x.writeM j v).fifoOutput = x.fifoOutput := rfl

/-! Chip.writeST -/

@[simp] theorem Chip.writeST_r (x : Chip) (j : Fin 42) (v : Nibble) : (x.writeST j v).r = x.r := rfl
@[simp] theorem Chip.writeST_m (x : Chip) (j : Fin 42) (v : Nibble) : (x.writeST j v).m = x.m := rfl
@[simp] theorem Chip.writeST_st (x : Chip) (j : Fin 42) (v : Nibble) : (x.writeST j v).st = x.st.set j.val v j.isLt := rfl
@[simp] theorem Chip.writeST_i (x : Chip) (j : Fin 42) (v : Nibble) : (x.writeST j v).i = x.i := rfl
@[simp] theorem Chip.writeST_sReg (x : Chip) (j : Fin 42) (v : Nibble) : (x.writeST j v).sReg = x.sReg := rfl
@[simp] theorem Chip.writeST_qReg (x : Chip) (j : Fin 42) (v : Nibble) : (x.writeST j v).qReg = x.qReg := rfl
@[simp] theorem Chip.writeST_carry (x : Chip) (j : Fin 42) (v : Nibble) : (x.writeST j v).carry = x.carry := rfl
@[simp] theorem Chip.writeST_keypadEvent (x : Chip) (j : Fin 42) (v : Nibble) : (x.writeST j v).keypadEvent = x.keypadEvent := rfl
@[simp] theorem Chip.writeST_ak (x : Chip) (j : Fin 42) (v : Nibble) : (x.writeST j v).ak = x.ak := rfl
@[simp] theorem Chip.writeST_aki (x : Chip) (j : Fin 42) (v : Nibble) : (x.writeST j v).aki = x.aki := rfl
@[simp] theorem Chip.writeST_u (x : Chip) (j : Fin 42) (v : Nibble) : (x.writeST j v).u = x.u := rfl
@[simp] theorem Chip.writeST_ua (x : Chip) (j : Fin 42) (v : Nibble) : (x.writeST j v).ua = x.ua := rfl
@[simp] theorem Chip.writeST_dot (x : Chip) (j : Fin 42) (v : Nibble) : (x.writeST j v).dot = x.dot := rfl
@[simp] theorem Chip.writeST_showDot (x : Chip) (j : Fin 42) (v : Nibble) : (x.writeST j v).showDot = x.showDot := rfl
@[simp] theorem Chip.writeST_slot (x : Chip) (j : Fin 42) (v : Nibble) : (x.writeST j v).slot = x.slot := rfl
@[simp] theorem Chip.writeST_fault (x : Chip) (j : Fin 42) (v : Nibble) : (x.writeST j v).fault = x.fault := rfl
@[simp] theorem Chip.writeST_fifoData (x : Chip) (j : Fin 42) (v : Nibble) : (x.writeST j v).fifoData = x.fifoData := rfl
@[simp] theorem Chip.writeST_fifoCycle (x : Chip) (j : Fin 42) (v : Nibble) : (x.writeST j v).fifoCycle = x.fifoCycle := rfl
@[simp] theorem Chip.writeST_fifoInput (x : Chip) (j : Fin 42) (v : Nibble) : (x.writeST j v).fifoInput = x.fifoInput := rfl
@[simp] theorem Chip.writeST_fifoOutput (x : Chip) (j : Fin 42) (v : Nibble) : (x.writeST j v).fifoOutput = x.fifoOutput := rfl

/-! Chip.setS -/

@[simp] theorem Chip.setS_r (x : Chip) (v : Nibble) : (x.setS v).r = x.r := rfl
@[simp] theorem Chip.setS_m (x : Chip) (v : Nibble) : (x.setS v).m = x.m := rfl
@[simp] theorem Chip.setS_st (x : Chip) (v : Nibble) : (x.setS v).st = x.st := rfl
@[simp] theorem Chip.setS_i (x : Chip) (v : Nibble) : (x.setS v).i = x.i := rfl
@[simp] theorem Chip.setS_sReg (x : Chip) (v : Nibble) : (x.setS v).sReg = v := rfl
@[simp] theorem Chip.setS_qReg (x : Chip) (v : Nibble) : (x.setS v).qReg = x.qReg := rfl
@[simp] theorem Chip.setS_carry (x : Chip) (v : Nibble) : (x.setS v).carry = x.carry := rfl
@[simp] theorem Chip.setS_keypadEvent (x : Chip) (v : Nibble) : (x.setS v).keypadEvent = x.keypadEvent := rfl
@[simp] theorem Chip.setS_ak (x : Chip) (v : Nibble) : (x.setS v).ak = x.ak := rfl
@[simp] theorem Chip.setS_aki (x : Chip) (v : Nibble) : (x.setS v).aki = x.aki := rfl
@[simp] theorem Chip.setS_u (x : Chip) (v : Nibble) : (x.setS v).u = x.u := rfl
@[simp] theorem Chip.setS_ua (x : Chip) (v : Nibble) : (x.setS v).ua = x.ua := rfl
@[simp] theorem Chip.setS_dot (x : Chip) (v : Nibble) : (x.setS v).dot = x.dot := rfl
@[simp] theorem Chip.setS_showDot (x : Chip) (v : Nibble) : (x.setS v).showDot = x.showDot := rfl
@[simp] theorem Chip.setS_slot (x : Chip) (v : Nibble) : (x.setS v).slot = x.slot := rfl
@[simp] theorem Chip.setS_fault (x : Chip) (v : Nibble) : (x.setS v).fault = x.fault := rfl
@[simp] theorem Chip.setS_fifoData (x : Chip) (v : Nibble) : (x.setS v).fifoData = x.fifoData := rfl
@[simp] theorem Chip.setS_fifoCycle (x : Chip) (v : Nibble) : (x.setS v).fifoCycle = x.fifoCycle := rfl
@[simp] theorem Chip.setS_fifoInput (x : Chip) (v : Nibble) : (x.setS v).fifoInput = x.fifoInput := rfl
@[simp] theorem Chip.setS_fifoOutput (x : Chip) (v : Nibble) : (x.setS v).fifoOutput = x.fifoOutput := rfl

/-! Chip.setQ -/

@[simp] theorem Chip.setQ_r (x : Chip) (v : Nibble) : (x.setQ v).r = x.r := rfl
@[simp] theorem Chip.setQ_m (x : Chip) (v : Nibble) : (x.setQ v).m = x.m := rfl
@[simp] theorem Chip.setQ_st (x : Chip) (v : Nibble) : (x.setQ v).st = x.st := rfl
@[simp] theorem Chip.setQ_i (x : Chip) (v : Nibble) : (x.setQ v).i = x.i := rfl
@[simp] theorem Chip.setQ_sReg (x : Chip) (v : Nibble) : (x.setQ v).sReg = x.sReg := rfl
@[simp] theorem Chip.setQ_qReg (x : Chip) (v : Nibble) : (x.setQ v).qReg = v := rfl
@[simp] theorem Chip.setQ_carry (x : Chip) (v : Nibble) : (x.setQ v).carry = x.carry := rfl
@[simp] theorem Chip.setQ_keypadEvent (x : Chip) (v : Nibble) : (x.setQ v).keypadEvent = x.keypadEvent := rfl
@[simp] theorem Chip.setQ_ak (x : Chip) (v : Nibble) : (x.setQ v).ak = x.ak := rfl
@[simp] theorem Chip.setQ_aki (x : Chip) (v : Nibble) : (x.setQ v).aki = x.aki := rfl
@[simp] theorem Chip.setQ_u (x : Chip) (v : Nibble) : (x.setQ v).u = x.u := rfl
@[simp] theorem Chip.setQ_ua (x : Chip) (v : Nibble) : (x.setQ v).ua = x.ua := rfl
@[simp] theorem Chip.setQ_dot (x : Chip) (v : Nibble) : (x.setQ v).dot = x.dot := rfl
@[simp] theorem Chip.setQ_showDot (x : Chip) (v : Nibble) : (x.setQ v).showDot = x.showDot := rfl
@[simp] theorem Chip.setQ_slot (x : Chip) (v : Nibble) : (x.setQ v).slot = x.slot := rfl
@[simp] theorem Chip.setQ_fault (x : Chip) (v : Nibble) : (x.setQ v).fault = x.fault := rfl
@[simp] theorem Chip.setQ_fifoData (x : Chip) (v : Nibble) : (x.setQ v).fifoData = x.fifoData := rfl
@[simp] theorem Chip.setQ_fifoCycle (x : Chip) (v : Nibble) : (x.setQ v).fifoCycle = x.fifoCycle := rfl
@[simp] theorem Chip.setQ_fifoInput (x : Chip) (v : Nibble) : (x.setQ v).fifoInput = x.fifoInput := rfl
@[simp] theorem Chip.setQ_fifoOutput (x : Chip) (v : Nibble) : (x.setQ v).fifoOutput = x.fifoOutput := rfl

/-! Chip.setCarry -/

@[simp] theorem Chip.setCarry_r (x : Chip) (b : Bit) : (x.setCarry b).r = x.r := rfl
@[simp] theorem Chip.setCarry_m (x : Chip) (b : Bit) : (x.setCarry b).m = x.m := rfl
@[simp] theorem Chip.setCarry_st (x : Chip) (b : Bit) : (x.setCarry b).st = x.st := rfl
@[simp] theorem Chip.setCarry_i (x : Chip) (b : Bit) : (x.setCarry b).i = x.i := rfl
@[simp] theorem Chip.setCarry_sReg (x : Chip) (b : Bit) : (x.setCarry b).sReg = x.sReg := rfl
@[simp] theorem Chip.setCarry_qReg (x : Chip) (b : Bit) : (x.setCarry b).qReg = x.qReg := rfl
@[simp] theorem Chip.setCarry_carry (x : Chip) (b : Bit) : (x.setCarry b).carry = b := rfl
@[simp] theorem Chip.setCarry_keypadEvent (x : Chip) (b : Bit) : (x.setCarry b).keypadEvent = x.keypadEvent := rfl
@[simp] theorem Chip.setCarry_ak (x : Chip) (b : Bit) : (x.setCarry b).ak = x.ak := rfl
@[simp] theorem Chip.setCarry_aki (x : Chip) (b : Bit) : (x.setCarry b).aki = x.aki := rfl
@[simp] theorem Chip.setCarry_u (x : Chip) (b : Bit) : (x.setCarry b).u = x.u := rfl
@[simp] theorem Chip.setCarry_ua (x : Chip) (b : Bit) : (x.setCarry b).ua = x.ua := rfl
@[simp] theorem Chip.setCarry_dot (x : Chip) (b : Bit) : (x.setCarry b).dot = x.dot := rfl
@[simp] theorem Chip.setCarry_showDot (x : Chip) (b : Bit) : (x.setCarry b).showDot = x.showDot := rfl
@[simp] theorem Chip.setCarry_slot (x : Chip) (b : Bit) : (x.setCarry b).slot = x.slot := rfl
@[simp] theorem Chip.setCarry_fault (x : Chip) (b : Bit) : (x.setCarry b).fault = x.fault := rfl
@[simp] theorem Chip.setCarry_fifoData (x : Chip) (b : Bit) : (x.setCarry b).fifoData = x.fifoData := rfl
@[simp] theorem Chip.setCarry_fifoCycle (x : Chip) (b : Bit) : (x.setCarry b).fifoCycle = x.fifoCycle := rfl
@[simp] theorem Chip.setCarry_fifoInput (x : Chip) (b : Bit) : (x.setCarry b).fifoInput = x.fifoInput := rfl
@[simp] theorem Chip.setCarry_fifoOutput (x : Chip) (b : Bit) : (x.setCarry b).fifoOutput = x.fifoOutput := rfl

/-! Chip.fifoStep -/

@[simp] theorem Chip.fifoStep_r (x : Chip) (v : Nibble) : (x.fifoStep v).r = x.r := rfl
@[simp] theorem Chip.fifoStep_m (x : Chip) (v : Nibble) : (x.fifoStep v).m = x.m := rfl
@[simp] theorem Chip.fifoStep_st (x : Chip) (v : Nibble) : (x.fifoStep v).st = x.st := rfl
@[simp] theorem Chip.fifoStep_i (x : Chip) (v : Nibble) : (x.fifoStep v).i = x.i := rfl
@[simp] theorem Chip.fifoStep_sReg (x : Chip) (v : Nibble) : (x.fifoStep v).sReg = x.sReg := rfl
@[simp] theorem Chip.fifoStep_qReg (x : Chip) (v : Nibble) : (x.fifoStep v).qReg = x.qReg := rfl
@[simp] theorem Chip.fifoStep_carry (x : Chip) (v : Nibble) : (x.fifoStep v).carry = x.carry := rfl
@[simp] theorem Chip.fifoStep_keypadEvent (x : Chip) (v : Nibble) : (x.fifoStep v).keypadEvent = x.keypadEvent := rfl
@[simp] theorem Chip.fifoStep_ak (x : Chip) (v : Nibble) : (x.fifoStep v).ak = x.ak := rfl
@[simp] theorem Chip.fifoStep_aki (x : Chip) (v : Nibble) : (x.fifoStep v).aki = x.aki := rfl
@[simp] theorem Chip.fifoStep_u (x : Chip) (v : Nibble) : (x.fifoStep v).u = x.u := rfl
@[simp] theorem Chip.fifoStep_ua (x : Chip) (v : Nibble) : (x.fifoStep v).ua = x.ua := rfl
@[simp] theorem Chip.fifoStep_dot (x : Chip) (v : Nibble) : (x.fifoStep v).dot = x.dot := rfl
@[simp] theorem Chip.fifoStep_showDot (x : Chip) (v : Nibble) : (x.fifoStep v).showDot = x.showDot := rfl
@[simp] theorem Chip.fifoStep_slot (x : Chip) (v : Nibble) : (x.fifoStep v).slot = x.slot := rfl
@[simp] theorem Chip.fifoStep_fault (x : Chip) (v : Nibble) : (x.fifoStep v).fault = x.fault := rfl
@[simp] theorem Chip.fifoStep_fifoData (x : Chip) (v : Nibble) : (x.fifoStep v).fifoData = x.fifoData.set (x.fifoCycle + 1).val v (x.fifoCycle + 1).isLt := rfl
@[simp] theorem Chip.fifoStep_fifoCycle (x : Chip) (v : Nibble) : (x.fifoStep v).fifoCycle = x.fifoCycle + 1 := rfl
@[simp] theorem Chip.fifoStep_fifoInput (x : Chip) (v : Nibble) : (x.fifoStep v).fifoInput = v := rfl
@[simp] theorem Chip.fifoStep_fifoOutput (x : Chip) (v : Nibble) : (x.fifoStep v).fifoOutput = x.fifoData.get (x.fifoCycle + 1) := rfl

/-! Chip.latch -/

@[simp] theorem Chip.latch_r (x : Chip) (f : Fetched) (ke : Bit) : (x.latch f ke).r = x.r := rfl
@[simp] theorem Chip.latch_m (x : Chip) (f : Fetched) (ke : Bit) : (x.latch f ke).m = x.m := rfl
@[simp] theorem Chip.latch_st (x : Chip) (f : Fetched) (ke : Bit) : (x.latch f ke).st = x.st := rfl
@[simp] theorem Chip.latch_i (x : Chip) (f : Fetched) (ke : Bit) : (x.latch f ke).i = x.i + 1 := rfl
@[simp] theorem Chip.latch_sReg (x : Chip) (f : Fetched) (ke : Bit) : (x.latch f ke).sReg = x.sReg := rfl
@[simp] theorem Chip.latch_qReg (x : Chip) (f : Fetched) (ke : Bit) : (x.latch f ke).qReg = x.qReg := rfl
@[simp] theorem Chip.latch_carry (x : Chip) (f : Fetched) (ke : Bit) : (x.latch f ke).carry = x.carry := rfl
@[simp] theorem Chip.latch_keypadEvent (x : Chip) (f : Fetched) (ke : Bit) : (x.latch f ke).keypadEvent = ke := rfl
@[simp] theorem Chip.latch_ak (x : Chip) (f : Fetched) (ke : Bit) : (x.latch f ke).ak = f.ak := rfl
@[simp] theorem Chip.latch_aki (x : Chip) (f : Fetched) (ke : Bit) : (x.latch f ke).aki = f.aki := rfl
@[simp] theorem Chip.latch_u (x : Chip) (f : Fetched) (ke : Bit) : (x.latch f ke).u = f.u := rfl
@[simp] theorem Chip.latch_ua (x : Chip) (f : Fetched) (ke : Bit) : (x.latch f ke).ua = f.ua := rfl
@[simp] theorem Chip.latch_dot (x : Chip) (f : Fetched) (ke : Bit) : (x.latch f ke).dot = x.dot := rfl
@[simp] theorem Chip.latch_showDot (x : Chip) (f : Fetched) (ke : Bit) : (x.latch f ke).showDot = x.showDot := rfl
@[simp] theorem Chip.latch_slot (x : Chip) (f : Fetched) (ke : Bit) : (x.latch f ke).slot = x.slot := rfl
@[simp] theorem Chip.latch_fault (x : Chip) (f : Fetched) (ke : Bit) : (x.latch f ke).fault = x.fault := rfl
@[simp] theorem Chip.latch_fifoData (x : Chip) (f : Fetched) (ke : Bit) : (x.latch f ke).fifoData = x.fifoData := rfl
@[simp] theorem Chip.latch_fifoCycle (x : Chip) (f : Fetched) (ke : Bit) : (x.latch f ke).fifoCycle = x.fifoCycle := rfl
@[simp] theorem Chip.latch_fifoInput (x : Chip) (f : Fetched) (ke : Bit) : (x.latch f ke).fifoInput = x.fifoInput := rfl
@[simp] theorem Chip.latch_fifoOutput (x : Chip) (f : Fetched) (ke : Bit) : (x.latch f ke).fifoOutput = x.fifoOutput := rfl

/-! Chip.writeTriple -/

@[simp] theorem Chip.writeTriple_r (x : Chip) (a b d : Nibble) : (x.writeTriple a b d).r = x.r := rfl
@[simp] theorem Chip.writeTriple_m (x : Chip) (a b d : Nibble) : (x.writeTriple a b d).m = x.m := rfl
@[simp] theorem Chip.writeTriple_i (x : Chip) (a b d : Nibble) : (x.writeTriple a b d).i = x.i := rfl
@[simp] theorem Chip.writeTriple_sReg (x : Chip) (a b d : Nibble) : (x.writeTriple a b d).sReg = x.sReg := rfl
@[simp] theorem Chip.writeTriple_qReg (x : Chip) (a b d : Nibble) : (x.writeTriple a b d).qReg = x.qReg := rfl
@[simp] theorem Chip.writeTriple_carry (x : Chip) (a b d : Nibble) : (x.writeTriple a b d).carry = x.carry := rfl
@[simp] theorem Chip.writeTriple_keypadEvent (x : Chip) (a b d : Nibble) : (x.writeTriple a b d).keypadEvent = x.keypadEvent := rfl
@[simp] theorem Chip.writeTriple_ak (x : Chip) (a b d : Nibble) : (x.writeTriple a b d).ak = x.ak := rfl
@[simp] theorem Chip.writeTriple_aki (x : Chip) (a b d : Nibble) : (x.writeTriple a b d).aki = x.aki := rfl
@[simp] theorem Chip.writeTriple_u (x : Chip) (a b d : Nibble) : (x.writeTriple a b d).u = x.u := rfl
@[simp] theorem Chip.writeTriple_ua (x : Chip) (a b d : Nibble) : (x.writeTriple a b d).ua = x.ua := rfl
@[simp] theorem Chip.writeTriple_dot (x : Chip) (a b d : Nibble) : (x.writeTriple a b d).dot = x.dot := rfl
@[simp] theorem Chip.writeTriple_showDot (x : Chip) (a b d : Nibble) : (x.writeTriple a b d).showDot = x.showDot := rfl
@[simp] theorem Chip.writeTriple_slot (x : Chip) (a b d : Nibble) : (x.writeTriple a b d).slot = x.slot := rfl
@[simp] theorem Chip.writeTriple_fault (x : Chip) (a b d : Nibble) : (x.writeTriple a b d).fault = x.fault := rfl
@[simp] theorem Chip.writeTriple_fifoData (x : Chip) (a b d : Nibble) : (x.writeTriple a b d).fifoData = x.fifoData := rfl
@[simp] theorem Chip.writeTriple_fifoCycle (x : Chip) (a b d : Nibble) : (x.writeTriple a b d).fifoCycle = x.fifoCycle := rfl
@[simp] theorem Chip.writeTriple_fifoInput (x : Chip) (a b d : Nibble) : (x.writeTriple a b d).fifoInput = x.fifoInput := rfl
@[simp] theorem Chip.writeTriple_fifoOutput (x : Chip) (a b d : Nibble) : (x.writeTriple a b d).fifoOutput = x.fifoOutput := rfl

/-! State.withChip -/

@[simp] theorem State.withChip_chip (x : State) (c : Chip) : (x.withChip c).chip = c := rfl
@[simp] theorem State.withChip_prog (x : State) (c : Chip) : (x.withChip c).prog = x.prog := rfl
@[simp] theorem State.withChip_cfg (x : State) (c : Chip) : (x.withChip c).cfg = x.cfg := rfl
@[simp] theorem State.withChip_bus (x : State) (c : Chip) : (x.withChip c).bus = x.bus := rfl
@[simp] theorem State.withChip_pending (x : State) (c : Chip) : (x.withChip c).pending = x.pending := rfl
@[simp] theorem State.withChip_out (x : State) (c : Chip) : (x.withChip c).out = x.out := rfl

/-! State.withBus -/

@[simp] theorem State.withBus_chip (x : State) (b : Bus) : (x.withBus b).chip = x.chip := rfl
@[simp] theorem State.withBus_prog (x : State) (b : Bus) : (x.withBus b).prog = x.prog := rfl
@[simp] theorem State.withBus_cfg (x : State) (b : Bus) : (x.withBus b).cfg = x.cfg := rfl
@[simp] theorem State.withBus_bus (x : State) (b : Bus) : (x.withBus b).bus = b := rfl
@[simp] theorem State.withBus_pending (x : State) (b : Bus) : (x.withBus b).pending = x.pending := rfl
@[simp] theorem State.withBus_out (x : State) (b : Bus) : (x.withBus b).out = x.out := rfl

/-! State.withProg -/

@[simp] theorem State.withProg_chip (x : State) (m : Memory) : (x.withProg m).chip = x.chip := rfl
@[simp] theorem State.withProg_prog (x : State) (m : Memory) : (x.withProg m).prog = m := rfl
@[simp] theorem State.withProg_cfg (x : State) (m : Memory) : (x.withProg m).cfg = x.cfg := rfl
@[simp] theorem State.withProg_bus (x : State) (m : Memory) : (x.withProg m).bus = x.bus := rfl
@[simp] theorem State.withProg_pending (x : State) (m : Memory) : (x.withProg m).pending = x.pending := rfl
@[simp] theorem State.withProg_out (x : State) (m : Memory) : (x.withProg m).out = x.out := rfl

/-! State.withOut -/

@[simp] theorem State.withOut_chip (x : State) (o : Result) : (x.withOut o).chip = x.chip := rfl
@[simp] theorem State.withOut_prog (x : State) (o : Result) : (x.withOut o).prog = x.prog := rfl
@[simp] theorem State.withOut_cfg (x : State) (o : Result) : (x.withOut o).cfg = x.cfg := rfl
@[simp] theorem State.withOut_bus (x : State) (o : Result) : (x.withOut o).bus = x.bus := rfl
@[simp] theorem State.withOut_pending (x : State) (o : Result) : (x.withOut o).pending = x.pending := rfl
@[simp] theorem State.withOut_out (x : State) (o : Result) : (x.withOut o).out = o := rfl

/-! State.withPending -/

@[simp] theorem State.withPending_chip (x : State) (ops : List HostOp) : (x.withPending ops).chip = x.chip := rfl
@[simp] theorem State.withPending_prog (x : State) (ops : List HostOp) : (x.withPending ops).prog = x.prog := rfl
@[simp] theorem State.withPending_cfg (x : State) (ops : List HostOp) : (x.withPending ops).cfg = x.cfg := rfl
@[simp] theorem State.withPending_bus (x : State) (ops : List HostOp) : (x.withPending ops).bus = x.bus := rfl
@[simp] theorem State.withPending_pending (x : State) (ops : List HostOp) : (x.withPending ops).pending = ops := rfl
@[simp] theorem State.withPending_out (x : State) (ops : List HostOp) : (x.withPending ops).out = x.out := rfl

/-! State.orAlpha -/

@[simp] theorem State.orAlpha_chip (x : State) (v : Nibble) : (x.orAlpha v).chip = x.chip := rfl
@[simp] theorem State.orAlpha_prog (x : State) (v : Nibble) : (x.orAlpha v).prog = x.prog := rfl
@[simp] theorem State.orAlpha_cfg (x : State) (v : Nibble) : (x.orAlpha v).cfg = x.cfg := rfl
@[simp] theorem State.orAlpha_bus (x : State) (v : Nibble) : (x.orAlpha v).bus = { x.bus with alpha := x.bus.alpha ||| v } := rfl
@[simp] theorem State.orAlpha_pending (x : State) (v : Nibble) : (x.orAlpha v).pending = x.pending := rfl
@[simp] theorem State.orAlpha_out (x : State) (v : Nibble) : (x.orAlpha v).out = x.out := rfl

/-! State.orBeta -/

@[simp] theorem State.orBeta_chip (x : State) (v : Nibble) : (x.orBeta v).chip = x.chip := rfl
@[simp] theorem State.orBeta_prog (x : State) (v : Nibble) : (x.orBeta v).prog = x.prog := rfl
@[simp] theorem State.orBeta_cfg (x : State) (v : Nibble) : (x.orBeta v).cfg = x.cfg := rfl
@[simp] theorem State.orBeta_bus (x : State) (v : Nibble) : (x.orBeta v).bus = { x.bus with beta := x.bus.beta ||| v } := rfl
@[simp] theorem State.orBeta_pending (x : State) (v : Nibble) : (x.orBeta v).pending = x.pending := rfl
@[simp] theorem State.orBeta_out (x : State) (v : Nibble) : (x.orBeta v).out = x.out := rfl

/-! State.orGamma -/

@[simp] theorem State.orGamma_chip (x : State) (v : Bit) : (x.orGamma v).chip = x.chip := rfl
@[simp] theorem State.orGamma_prog (x : State) (v : Bit) : (x.orGamma v).prog = x.prog := rfl
@[simp] theorem State.orGamma_cfg (x : State) (v : Bit) : (x.orGamma v).cfg = x.cfg := rfl
@[simp] theorem State.orGamma_bus (x : State) (v : Bit) : (x.orGamma v).bus = { x.bus with gamma := x.bus.gamma ||| v } := rfl
@[simp] theorem State.orGamma_pending (x : State) (v : Bit) : (x.orGamma v).pending = x.pending := rfl
@[simp] theorem State.orGamma_out (x : State) (v : Bit) : (x.orGamma v).out = x.out := rfl

/-! State.putRi -/

@[simp] theorem State.putRi_chip (x : State) (v : Nibble) : (x.putRi v).chip = x.chip.writeR x.chip.i v := rfl
@[simp] theorem State.putRi_prog (x : State) (v : Nibble) : (x.putRi v).prog = x.prog := rfl
@[simp] theorem State.putRi_cfg (x : State) (v : Nibble) : (x.putRi v).cfg = x.cfg := rfl
@[simp] theorem State.putRi_bus (x : State) (v : Nibble) : (x.putRi v).bus = x.bus := rfl
@[simp] theorem State.putRi_pending (x : State) (v : Nibble) : (x.putRi v).pending = x.pending := rfl
@[simp] theorem State.putRi_out (x : State) (v : Nibble) : (x.putRi v).out = x.out := rfl

/-! State.takeFault -/

@[simp] theorem State.takeFault_chip (x : State) (f : Fault) : (x.takeFault f).chip = { x.chip with fault := some (x.recordOf f) } := rfl
@[simp] theorem State.takeFault_prog (x : State) (f : Fault) : (x.takeFault f).prog = x.prog := rfl
@[simp] theorem State.takeFault_cfg (x : State) (f : Fault) : (x.takeFault f).cfg = x.cfg := rfl
@[simp] theorem State.takeFault_bus (x : State) (f : Fault) : (x.takeFault f).bus = Bus.idle := rfl
@[simp] theorem State.takeFault_pending (x : State) (f : Fault) : (x.takeFault f).pending = x.pending := rfl
@[simp] theorem State.takeFault_out (x : State) (f : Fault) : (x.takeFault f).out = .ticked [] (.faulted (x.recordOf f)) := rfl

/-! State.initialised -/

@[simp] theorem State.initialised_chip (x : State) (m : Memory) : (x.initialised m).chip = Chip.reset := rfl
@[simp] theorem State.initialised_prog (x : State) (m : Memory) : (x.initialised m).prog = m := rfl
@[simp] theorem State.initialised_cfg (x : State) (m : Memory) : (x.initialised m).cfg = x.cfg := rfl
@[simp] theorem State.initialised_bus (x : State) (m : Memory) : (x.initialised m).bus = Bus.idle := rfl
@[simp] theorem State.initialised_pending (x : State) (m : Memory) : (x.initialised m).pending = x.pending := rfl
@[simp] theorem State.initialised_out (x : State) (m : Memory) : (x.initialised m).out = .initDone := rfl

/-! The tick's beginning -/

@[simp] theorem beginTick_chip (key : Byte) (mode : AngularMode) (x : State) : (beginTick key mode x).chip = x.chip := rfl
@[simp] theorem beginTick_prog (key : Byte) (mode : AngularMode) (x : State) : (beginTick key mode x).prog = x.prog := rfl
@[simp] theorem beginTick_cfg (key : Byte) (mode : AngularMode) (x : State) : (beginTick key mode x).cfg = x.cfg := rfl
@[simp] theorem beginTick_pending (key : Byte) (mode : AngularMode) (x : State) : (beginTick key mode x).pending = x.pending := rfl
@[simp] theorem beginTick_out (key : Byte) (mode : AngularMode) (x : State) : (beginTick key mode x).out = x.out := rfl
@[simp] theorem beginTick_bus_alpha (key : Byte) (mode : AngularMode) (x : State) : (beginTick key mode x).bus.alpha = 0 := rfl
@[simp] theorem beginTick_bus_beta (key : Byte) (mode : AngularMode) (x : State) : (beginTick key mode x).bus.beta = 0 := rfl
@[simp] theorem beginTick_bus_gamma (key : Byte) (mode : AngularMode) (x : State) : (beginTick key mode x).bus.gamma = 0 := rfl
@[simp] theorem beginTick_bus_sum (key : Byte) (mode : AngularMode) (x : State) : (beginTick key mode x).bus.sum = 0 := rfl
@[simp] theorem beginTick_bus_cout (key : Byte) (mode : AngularMode) (x : State) : (beginTick key mode x).bus.cout = 0 := rfl
@[simp] theorem beginTick_bus_ke (key : Byte) (mode : AngularMode) (x : State) : (beginTick key mode x).bus.ke = keyEvent x.cfg key x.chip := rfl
@[simp] theorem beginTick_bus_keyQ (key : Byte) (mode : AngularMode) (x : State) : (beginTick key mode x).bus.keyQ = keyQ x.cfg key mode x.chip := rfl

/-! The record of a fault -/

@[simp] theorem State.recordOf_cause (x : State) (f : Fault) : (x.recordOf f).cause = f := rfl
@[simp] theorem State.recordOf_window (x : State) (f : Fault) : (x.recordOf f).window = x.chip.i := rfl
@[simp] theorem State.recordOf_slot (x : State) (f : Fault) : (x.recordOf f).slot = x.chip.slot := rfl

end Sys2Proof.Machine
end

