-- ==== Sys2Proof/Laws/Ops.lean ====
section
/-! SUPPORT. One lemma per shared operation over the banks, the FIFO chip, the display and the end of a tick: what it
leaves in each place. -/

namespace Sys2Proof.Machine

/-- Reading a bank after a write of one of its words. -/
theorem bank_get_set {n w : Nat} (b : Vector (BitVec w) n) (j k : Fin n) (v : BitVec w) :
    (b.set j.val v j.isLt).get k = if k = j then v else b.get k := by
  simp only [Vector.get_eq_getElem, Vector.getElem_set, Fin.ext_iff, eq_comm]

theorem Chip.writeR_get (c : Chip) (j k : Fin 42) (v : Nibble) :
    (c.writeR j v).r.get k = if k = j then v else c.r.get k := bank_get_set c.r j k v

theorem Chip.writeM_get (c : Chip) (j k : Fin 42) (v : Nibble) :
    (c.writeM j v).m.get k = if k = j then v else c.m.get k := bank_get_set c.m j k v

theorem Chip.writeST_get (c : Chip) (j k : Fin 42) (v : Nibble) :
    (c.writeST j v).st.get k = if k = j then v else c.st.get k := bank_get_set c.st j k v

/-- The three words of an ST update are different words (R12). -/
theorem window_words_differ (i : Fin 42) :
    i ≠ i + 1 ∧ i ≠ i + 2 ∧ i + 1 ≠ i + 2 ∧ i ≠ i - 1 ∧ i ≠ i - 2 ∧ i - 1 ≠ i - 2 := by
  revert i; decide

/-- R[i+3] is no destination of the same tick (R179). -/
theorem source_ahead_of_writes (i : Fin 42) : i + 3 ≠ i ∧ i + 3 ≠ i - 1 ∧ i + 3 ≠ i - 2 := by
  revert i; decide

/-- Every word of ST after the triple at i is written. -/
theorem Chip.writeTriple_get (c : Chip) (x y z : Nibble) (k : Fin 42) :
    (c.writeTriple x y z).st.get k =
      if k = c.i then x else if k = c.i + 1 then y else if k = c.i + 2 then z else c.st.get k := by
  obtain ⟨h1, h2, h3, -⟩ := window_words_differ c.i
  simp only [Chip.writeTriple, Chip.writeST_get]
  by_cases ha : k = c.i
  · simp [ha, h1, h2]
  · by_cases hb : k = c.i + 1
    · simp [hb, h3, Ne.symm h1]
    · simp [ha, hb]

/-- The 4-bit complement is 15 - x and the bitwise complement at once (R11). -/
theorem complement4_eq (x : Nibble) : complement4 x = ~~~ x := by revert x; decide

/-- The 1-bit complement is 1 - b and the bitwise complement at once (R11). -/
theorem complement1_eq (b : Bit) : complement1 b = ~~~ b := by revert b; decide

/-- Every cell of the FIFO after one step. -/
theorem Chip.fifoStep_get (c : Chip) (v : Nibble) (k : Fin 252) :
    (c.fifoStep v).fifoData.get k = if k = c.fifoCycle + 1 then v else c.fifoData.get k :=
  bank_get_set c.fifoData (c.fifoCycle + 1) k v

/-- The FIFO exchange: one step with M[i], and M[i] itself by the link. -/
theorem fifoExchange_eq (link : FifoLink) (c : Chip) :
    fifoExchange link c = (c.fifoStep c.mi).writeM c.i
      (if link = .ring then c.fifoData.get (c.fifoCycle + 1) else c.mi) := by
  cases link
  · rfl
  · have e : (c.m.set c.i.val (c.m.get c.i) c.i.isLt) = c.m := by
      simp [Vector.get_eq_getElem, Vector.set_getElem_self]
    simp only [fifoExchange, Chip.mi, Chip.writeM, Chip.fifoStep, reduceCtorEq, if_false, e]

/-- Display: at i = 41 one event and its three writes, else nothing. -/
theorem display_cases (g : Cfg) (start : Chip) (ak : Nat) (c : Chip) :
    (start.i = 41 ∧ display g start ak c =
      ({ c with
          dot := (displayEvent g start ak).dot
          showDot := c.showDot.set start.slot.val (displayEvent g start ak).dot start.slot.isLt
          slot := start.slot + 1 }, [displayEvent g start ak])) ∨
    (start.i ≠ 41 ∧ display g start ak c = (c, [])) := by
  unfold display
  by_cases h : start.i = 41
  · exact .inl ⟨h, if_pos h⟩
  · exact .inr ⟨h, if_neg h⟩

/-- The display leaves everything but dot, show_dot and slot. -/
theorem display_frame (g : Cfg) (start : Chip) (ak : Nat) (c : Chip) :
    (display g start ak c).1 = { c with
      dot := (display g start ak c).1.dot
      showDot := (display g start ak c).1.showDot
      slot := (display g start ak c).1.slot } := by
  rcases display_cases g start ak c with ⟨_, e⟩ | ⟨_, e⟩ <;> rw [e]

/-- The CORE at a tick's end: the display after the FIFO exchange, then the latches. -/
theorem finishTick_chip (start : Chip) (f : Fetched) (s : State) :
    (finishTick start f s).chip =
      (display s.cfg start f.ak (fifoExchange s.cfg.fifoLink s.chip)).1.latch f s.bus.ke := rfl

/-- What the host gets back from a clean tick. -/
theorem finishTick_out (start : Chip) (f : Fetched) (s : State) :
    (finishTick start f s).out =
      .ticked (display s.cfg start f.ak (fifoExchange s.cfg.fifoLink s.chip)).2
        (.ok (running s.cfg (finishTick start f s).chip)) := rfl

/-- A clean tick's end keeps R, ST, S, Q, carry and the fault register, and advances the window. -/
theorem finishTick_registers (start : Chip) (f : Fetched) (s : State) :
    (finishTick start f s).chip.r = s.chip.r ∧ (finishTick start f s).chip.st = s.chip.st ∧
      (finishTick start f s).chip.sReg = s.chip.sReg ∧ (finishTick start f s).chip.qReg = s.chip.qReg ∧
      (finishTick start f s).chip.carry = s.chip.carry ∧ (finishTick start f s).chip.fault = s.chip.fault ∧
      (finishTick start f s).chip.i = s.chip.i + 1 := by
  rw [finishTick_chip, fifoExchange_eq]
  rcases display_cases s.cfg start f.ak ((s.chip.fifoStep s.chip.mi).writeM s.chip.i
    (if s.cfg.fifoLink = .ring then s.chip.fifoData.get (s.chip.fifoCycle + 1) else s.chip.mi)) with
    ⟨_, e⟩ | ⟨_, e⟩ <;> rw [e] <;> exact ⟨rfl, rfl, rfl, rfl, rfl, rfl, rfl⟩

/-- Bank M and the FIFO chip at a tick's end. -/
theorem finishTick_fifo (start : Chip) (f : Fetched) (s : State) :
    (∀ j, (finishTick start f s).chip.m.get j =
      if j = s.chip.i then (if s.cfg.fifoLink = .ring then s.chip.fifoData.get (s.chip.fifoCycle + 1)
        else s.chip.m.get s.chip.i) else s.chip.m.get j) ∧
    (∀ k, (finishTick start f s).chip.fifoData.get k =
      if k = s.chip.fifoCycle + 1 then s.chip.m.get s.chip.i else s.chip.fifoData.get k) ∧
    (finishTick start f s).chip.fifoCycle = s.chip.fifoCycle + 1 ∧
    (finishTick start f s).chip.fifoInput = s.chip.m.get s.chip.i ∧
    (finishTick start f s).chip.fifoOutput = s.chip.fifoData.get (s.chip.fifoCycle + 1) := by
  rw [finishTick_chip, fifoExchange_eq]
  rcases display_cases s.cfg start f.ak ((s.chip.fifoStep s.chip.mi).writeM s.chip.i
    (if s.cfg.fifoLink = .ring then s.chip.fifoData.get (s.chip.fifoCycle + 1) else s.chip.mi)) with
    ⟨_, e⟩ | ⟨_, e⟩ <;> rw [e] <;>
    exact ⟨fun j => Chip.writeM_get _ _ _ _, fun k => Chip.fifoStep_get _ _ _, rfl, rfl, rfl⟩

end Sys2Proof.Machine
end

