-- ==== Sys2Proof/Laws/PerInstr.lean ====
section
/-! SUPPORT. Statements for all micro-operations, one lemma per constructor. -/

namespace Sys2Proof.Laws.EncodeDecode

/-- The micro-operation alone is a microinstruction, and its word under the layout of R81 decodes to it and to nothing
else (R81, R101, R102). -/
def Statement (i : Instr) : Prop := i.WellFormed ∧ decode .standard (encode [i]) = .ok [i]

theorem aR : Statement .aR := ⟨by decide, by rfl⟩
theorem aM : Statement .aM := ⟨by decide, by rfl⟩
theorem aST : Statement .aST := ⟨by decide, by rfl⟩
theorem aNR : Statement .aNR := ⟨by decide, by rfl⟩
theorem a10NC : Statement .a10NC := ⟨by decide, by rfl⟩
theorem aS : Statement .aS := ⟨by decide, by rfl⟩
theorem a4 : Statement .a4 := ⟨by decide, by rfl⟩
theorem bS : Statement .bS := ⟨by decide, by rfl⟩
theorem bNS : Statement .bNS := ⟨by decide, by rfl⟩
theorem bQ : Statement .bQ := ⟨by decide, by rfl⟩
theorem b6 : Statement .b6 := ⟨by decide, by rfl⟩
theorem b1 : Statement .b1 := ⟨by decide, by rfl⟩
theorem gC : Statement .gC := ⟨by decide, by rfl⟩
theorem gNC : Statement .gNC := ⟨by decide, by rfl⟩
theorem gNK : Statement .gNK := ⟨by decide, by rfl⟩
theorem rwR3 : Statement .rwR3 := ⟨by decide, by rfl⟩
theorem rwSum : Statement .rwSum := ⟨by decide, by rfl⟩
theorem rwS : Statement .rwS := ⟨by decide, by rfl⟩
theorem rwRSSum : Statement .rwRSSum := ⟨by decide, by rfl⟩
theorem rwSSum : Statement .rwSSum := ⟨by decide, by rfl⟩
theorem rwRS : Statement .rwRS := ⟨by decide, by rfl⟩
theorem rwRSum : Statement .rwRSum := ⟨by decide, by rfl⟩
theorem r1Sum : Statement .r1Sum := ⟨by decide, by rfl⟩
theorem r2Sum : Statement .r2Sum := ⟨by decide, by rfl⟩
theorem mwS : Statement .mwS := ⟨by decide, by rfl⟩
theorem cw : Statement .cw := ⟨by decide, by rfl⟩
theorem swQ : Statement .swQ := ⟨by decide, by rfl⟩
theorem swSum : Statement .swSum := ⟨by decide, by rfl⟩
theorem swQSum : Statement .swQSum := ⟨by decide, by rfl⟩
theorem qwSum : Statement .qwSum := ⟨by decide, by rfl⟩
theorem ks : Statement .ks := ⟨by decide, by rfl⟩
theorem stShift : Statement .stShift := ⟨by decide, by rfl⟩
theorem stRot : Statement .stRot := ⟨by decide, by rfl⟩

end Sys2Proof.Laws.EncodeDecode
end

