-- ==== Sys2Proof/Tests/Slice0.lean ====
section
/-! SUPPORT. Tests from the vectors of 95_test_vectors.md, the well-formedness smoke tests, and a witness for the
hypotheses of every statement. The configuration is that of 95_test_vectors.md section 0; no claim rests on it. -/

namespace Sys2Proof.Tests

-- One test at a time: each would hold a thread with a large stack while its evaluation is checked.
set_option Elab.async false

open Sys2Proof.Machine
open Sys2Proof.Safety

/-- TESTCFG (95_test_vectors.md, section 0) with the given table of 84 words. -/
def testCfg (rom : List MicroWord) : Cfg where
  variant := .slots105
  cmdWordBits := 8
  cmdRom := [0, 1]
  urom := rom
  layout := .standard
  macroSelect := .given [.bankR (.lit 5)] (.byte 0)
  microSelect := .given (.add (.mul (.lit 42) .macroWord) .window)
  keyEvent := .given (.lit 1)
  keyQ := .given (.mod .key (.lit 16))
  displayValue := .given (.lit 15) (.lit 0)
  running := .given (.lit 0)
  fifoLink := .ring
  adderMode := .decimal
  progInit := []

/-- A table of NOPs but for one word. -/
def rom (k : Nat) (w : MicroWord) : List MicroWord := (List.replicate 84 0).set k w

/-- A state at window offset `i` whose next step is the tick of one word under TESTCFG. -/
def demo (i : Fin 42) (w : MicroWord) (key : Byte) (c : Chip) : State where
  chip := { c with i := i }
  prog := []
  cfg := testCfg (rom i.val w)
  bus := Bus.idle
  pending := [.tick key .radians]
  out := .nothing

/-- The state that a step answers. -/
def after (s : State) : Option State :=
  match step s with
  | .next t => some t
  | _ => none

/-- Values read from the CORE after a step that recorded no fault. -/
def look (s : State) (f : Chip → List Nat) : Option (List Nat) :=
  match after s with
  | some t => if t.chip.fault = none then some (f t.chip) else none
  | none => none

/-- alpha, beta and gamma of a word's tick at i = 0. -/
def terms (w : MicroWord) (key : Byte) (c : Chip) : Option (List Nat) :=
  match decode .standard w with
  | .ok ops =>
    match runOps (ops.filter isSource) (beginTick key .radians (demo 0 w key c)) with
    | .next t => some [t.bus.alpha.toNat, t.bus.beta.toNat, t.bus.gamma.toNat]
    | _ => none
  | .error _ => none

/-- A state whose next step is the tick of one given word: the only word of its table, always selected. -/
def single (link : FifoLink) (mode : AdderMode) (w : MicroWord) (c : Chip) (ops : List HostOp) : State where
  chip := c
  prog := []
  cfg := fetchingCfg { testCfg [] with fifoLink := link, adderMode := mode } w
  bus := Bus.idle
  pending := .tick 0 .radians :: ops
  out := .nothing

/-- The reset CORE at another window offset. -/
def win (i : Fin 42) : Chip := { Chip.reset with i := i }

/-- The same from reset under another layout. -/
def underLayout (l : Layout) (w : MicroWord) : State :=
  { single .ring .decimal w Chip.reset [] with
    cfg := { (single .ring .decimal w Chip.reset []).cfg with layout := l } }

/-- MACRO_SELECT reads byte 3, which is 9, and then the byte at 100 more than that, which is out of range. -/
def secondRead : State :=
  { demo 0 0 0 Chip.reset with
    prog := [(3, 9)]
    cfg := { testCfg (rom 0 0) with macroSelect := .given [.lit 3, .add (.byte 0) (.lit 100)] (.byte 1) } }

/-! Well-formedness refuses each ill-formed list and layout -/

theorem test_wf_accepts : Micro.WellFormed [.aR, .b1, .rwSum, .r1Sum, .cw] := by decide
theorem test_wf_refuses_wrong_order : ¬ Micro.WellFormed [.aM, .aR] := by decide
theorem test_wf_refuses_twice : ¬ Micro.WellFormed [.cw, .cw] := by decide
theorem test_wf_refuses_two_rw_modes : ¬ Micro.WellFormed [.rwR3, .rwSum] := by decide
theorem test_wf_refuses_two_sw_modes : ¬ Micro.WellFormed [.swQ, .swQSum] := by decide
theorem test_wf_refuses_two_stw_modes : ¬ Micro.WellFormed [.stShift, .stRot] := by decide
theorem test_layout_refuses_shared_bit : (Layout.custom (Vector.replicate 28 0)).WellFormed = false := by
  decide +kernel
theorem test_assemble_refuses_two_modes : assemble [.rwSum, .aR, .rwS] = none := by decide
/-- The example of R99. -/
theorem test_assemble_example : assemble [.b1, .aR, .cw, .rwSum, .aR] = some 0x0210801 := by decide

/-! Decoding -/

/-- The words of the alpha sources, from the opcode map of R102. -/
theorem test_decode_alpha :
    decode .standard 0x0000001 = .ok [.aR] ∧
    decode .standard 0x0000002 = .ok [.aM] ∧
    decode .standard 0x0000004 = .ok [.aST] ∧
    decode .standard 0x0000008 = .ok [.aNR] ∧
    decode .standard 0x0000010 = .ok [.a10NC] ∧
    decode .standard 0x0000020 = .ok [.aS] ∧
    decode .standard 0x0000040 = .ok [.a4] := by
  decide

/-- The words of the beta sources (R102). -/
theorem test_decode_beta :
    decode .standard 0x0000080 = .ok [.bS] ∧
    decode .standard 0x0000100 = .ok [.bNS] ∧
    decode .standard 0x0000200 = .ok [.bQ] ∧
    decode .standard 0x0000400 = .ok [.b6] ∧
    decode .standard 0x0000800 = .ok [.b1] := by
  decide

/-- The words of the gamma sources (R102). -/
theorem test_decode_gamma :
    decode .standard 0x0001000 = .ok [.gC] ∧
    decode .standard 0x0002000 = .ok [.gNC] ∧
    decode .standard 0x0004000 = .ok [.gNK] := by
  decide

/-- The words of the RW field, bits 17:15 (R82, R102). -/
theorem test_decode_rw :
    decode .standard 0x0008000 = .ok [.rwR3] ∧
    decode .standard 0x0010000 = .ok [.rwSum] ∧
    decode .standard 0x0018000 = .ok [.rwS] ∧
    decode .standard 0x0020000 = .ok [.rwRSSum] ∧
    decode .standard 0x0028000 = .ok [.rwSSum] ∧
    decode .standard 0x0030000 = .ok [.rwRS] ∧
    decode .standard 0x0038000 = .ok [.rwRSum] := by
  decide

/-- The words of R1, R2, MW and CW (R102). -/
theorem test_decode_aux_m_carry :
    decode .standard 0x0040000 = .ok [.r1Sum] ∧
    decode .standard 0x0080000 = .ok [.r2Sum] ∧
    decode .standard 0x0100000 = .ok [.mwS] ∧
    decode .standard 0x0200000 = .ok [.cw] := by
  decide

/-- The words of the SW field, QW and KS (R83, R102). -/
theorem test_decode_sw_q :
    decode .standard 0x0400000 = .ok [.swQ] ∧
    decode .standard 0x0800000 = .ok [.swSum] ∧
    decode .standard 0x0c00000 = .ok [.swQSum] ∧
    decode .standard 0x1000000 = .ok [.qwSum] ∧
    decode .standard 0x2000000 = .ok [.ks] := by
  decide

/-- The words of the STW field, bits 27:26 (R84, R102). -/
theorem test_decode_stw :
    decode .standard 0x4000000 = .ok [.stShift] ∧
    decode .standard 0x8000000 = .ok [.stRot] := by
  decide

/-- V2, V6, V9, V3, V1, V4, V5, V7 and V8 of 95_test_vectors.md. -/
theorem test_decode_vectors :
    decode .standard 0x0210801 = .ok [.aR, .b1, .rwSum, .cw] ∧ decode .standard 0x8000000 = .ok [.stRot] ∧
    decode .standard 0x0007F83 = .ok [.aR, .aM, .bS, .bNS, .bQ, .b6, .b1, .gC, .gNC, .gNK] ∧
    decode .standard 0x7FFFFFF = .ok ([.aR, .aM, .aST, .aNR, .a10NC, .aS, .a4, .bS, .bNS, .bQ, .b6, .b1, .gC, .gNC,
      .gNK, .rwRSum, .r1Sum, .r2Sum, .mwS, .cw, .swQSum, .qwSum, .ks, .stShift]) ∧
    decode .standard 0 = .ok [] ∧ decode .standard 0xFFFFFFF = .error .reservedStw ∧
    decode .standard 0xC000000 = .error .reservedStw ∧ decode .standard 0x10000000 = .error .reservedBits ∧
    decode .standard 0x80000001 = .error .reservedBits := by
  decide +kernel

/-- A layout that lists the fields from bit 31 downward (R91). -/
def reversed : Layout := .custom (Vector.ofFn fun k => ⟨31 - k.val, by omega⟩)

/-- Under it A_R is bit 31, RW = 2 is bit 15, and bits 3:0 are reserved (R91). -/
theorem test_decode_other_layout :
    decode reversed 0x80008000 = .ok [.aR, .rwSum] ∧ decode reversed 0x80000008 = .error .reservedBits ∧
    encodeUnder reversed [.aR, .rwSum] = 0x80008000 := by
  decide +kernel

theorem test_table_word : decodeTableWord 28 0x38000 = some .rwRSum ∧ decodeTableWord 8 0x40 = some .a4 := by decide

/-- The very next step after a word is placed runs it without a fault. -/
theorem test_fetch_word :
    ((after (State.reset.withFetchWord 28 0x0010800)).map fun t => ((t.chip.r.get 0).toNat, t.chip.fault)) =
      some (1, none) := by
  decide +kernel

/-! Ticks -/

/-- W1, W2, W3, W4, W6, W7, W8, W9 of 95_test_vectors.md. -/
theorem test_tick_rw :
    look (demo 40 0x0008000 0 ((Chip.reset).writeR 1 7)) (fun c => [(c.r.get 40).toNat]) = some [7] ∧
    look (demo 5 0x0008000 0 (((Chip.reset).writeR 8 3).writeR 5 9)) (fun c => [(c.r.get 5).toNat]) = some [3] ∧
    look (demo 0 0x0010801 0 ((Chip.reset).writeR 0 9)) (fun c => [(c.r.get 0).toNat, c.carry.toNat]) = some [0, 0] ∧
    look (demo 0 0x0018000 0 ((Chip.reset).setS 4)) (fun c => [(c.r.get 0).toNat]) = some [4] ∧
    look (demo 0 0x0020800 0 (((Chip.reset).writeR 0 8).setS 2)) (fun c => [(c.r.get 0).toNat]) = some [11] ∧
    look (demo 0 0x0028800 0 (((Chip.reset).writeR 0 5).setS 8)) (fun c => [(c.r.get 0).toNat]) = some [9] ∧
    look (demo 0 0x0030000 0 (((Chip.reset).writeR 0 1).setS 6)) (fun c => [(c.r.get 0).toNat]) = some [7] ∧
    look (demo 0 0x0038800 0 ((Chip.reset).writeR 0 8)) (fun c => [(c.r.get 0).toNat]) = some [9] := by
  decide +kernel

/-- T2, T3, T4, T6, T7, T9, T10, T12, T14, T16, T17, T18, T19, T20, T22, T23, T24 and T25 of 95_test_vectors.md:
alpha, beta, gamma. -/
theorem test_terms :
    terms 0x0000003 0 (((Chip.reset).writeR 0 5).writeM 0 3) = some [7, 0, 0] ∧
    terms 0x0000004 0 ((Chip.reset).writeST 0 6) = some [6, 0, 0] ∧
    terms 0x0000008 0 ((Chip.reset).writeR 0 3) = some [12, 0, 0] ∧
    terms 0x0000008 0 ((Chip.reset).writeR 0 15) = some [0, 0, 0] ∧
    terms 0x0000009 0 ((Chip.reset).writeR 0 6) = some [15, 0, 0] ∧
    terms 0x0000010 0 ((Chip.reset).setCarry 1) = some [0, 0, 0] ∧
    terms 0x0000011 0 ((Chip.reset).writeR 0 5) = some [15, 0, 0] ∧
    terms 0x0000041 0 ((Chip.reset).writeR 0 3) = some [7, 0, 0] ∧
    terms 0x0000100 0 ((Chip.reset).setS 6) = some [0, 9, 0] ∧
    terms 0x0000200 0 ((Chip.reset).setQ 7) = some [0, 7, 0] ∧
    terms 0x0000c00 0 (Chip.reset) = some [0, 7, 0] ∧
    terms 0x0000880 0 ((Chip.reset).setS 4) = some [0, 5, 0] ∧
    terms 0x0001000 0 ((Chip.reset).setCarry 1) = some [0, 0, 1] ∧
    terms 0x0002000 0 ((Chip.reset).setCarry 1) = some [0, 0, 0] ∧
    terms 0x0003000 0 (Chip.reset) = some [0, 0, 1] ∧
    terms 0x0004000 0 (Chip.reset) = some [0, 0, 1] ∧
    terms 0x0004000 0x28 (Chip.reset) = some [0, 0, 0] ∧
    terms 0x00000a0 0 ((Chip.reset).setS 7) = some [7, 7, 0] := by
  decide +kernel

/-- W10 to W16, W17, W18, W20, W19, W21, W22, W23, W27, W24 to W26, A1, E2, and tick 0 of P5's runs B and A, of
95_test_vectors.md. -/
theorem test_tick_scalars_and_banks :
    look (demo 0 0x0040840 0 (Chip.reset)) (fun c => [(c.r.get 41).toNat]) = some [5] ∧
    look (demo 1 0x0082800 0 (Chip.reset)) (fun c => [(c.r.get 41).toNat]) = some [2] ∧
    look (demo 0 0x00D0040 0 (Chip.reset)) (fun c => [(c.r.get 0).toNat, (c.r.get 41).toNat, (c.r.get 40).toNat]) = some [4, 4, 4] ∧
    look (demo 1 0x0100000 0 ((Chip.reset).setS 6)) (fun c => [c.fifoInput.toNat, (c.m.get 1).toNat]) = some [6, 0] ∧
    look (demo 0 0x0200010 0 (Chip.reset)) (fun c => [c.carry.toNat]) = some [1] ∧
    look (demo 0 0x0200010 0 ((Chip.reset).setCarry 1)) (fun c => [c.carry.toNat]) = some [0] ∧
    look (demo 0 0x0000108 0 ((Chip.reset).setCarry 1)) (fun c => [c.carry.toNat]) = some [1] ∧
    look (demo 0 0x0400000 0 ((Chip.reset).setQ 7)) (fun c => [c.sReg.toNat]) = some [7] ∧
    look (demo 0 0x0800001 0 ((Chip.reset).writeR 0 6)) (fun c => [c.sReg.toNat]) = some [6] ∧
    look (demo 0 0x0C00040 0 (Chip.reset)) (fun c => [c.sReg.toNat]) = some [4] ∧
    look (demo 0 0x0C00040 0 ((Chip.reset).setQ 7)) (fun c => [c.sReg.toNat]) = some [7] ∧
    look (demo 0 0x1000820 0 ((Chip.reset).setS 6)) (fun c => [c.qReg.toNat]) = some [7] ∧
    look (demo 0 0x2000000 0xB9 (Chip.reset)) (fun c => [c.qReg.toNat]) = some [9] ∧
    look (demo 0 0x3000040 0x21 (Chip.reset)) (fun c => [c.qReg.toNat]) = some [1] ∧
    look (demo 0 0x0818820 0 ((Chip.reset).setS 3)) (fun c => [c.sReg.toNat, (c.r.get 0).toNat]) = some [4, 3] ∧
    look (demo 5 0x4000001 0 (((((Chip.reset).writeST 5 1).writeST 6 2).writeST 7 3).writeR 5 7)) (fun c => [(c.st.get 5).toNat, (c.st.get 6).toNat, (c.st.get 7).toNat]) = some [7, 1, 2] ∧
    look (demo 41 0x4000001 0 (((((Chip.reset).writeST 41 1).writeST 0 2).writeST 1 3).writeR 41 4)) (fun c => [(c.st.get 41).toNat, (c.st.get 0).toNat, (c.st.get 1).toNat]) = some [4, 1, 2] ∧
    look (demo 40 0x8000000 0 ((((Chip.reset).writeST 40 1).writeST 41 2).writeST 0 3)) (fun c => [(c.st.get 40).toNat, (c.st.get 41).toNat, (c.st.get 0).toNat]) = some [2, 3, 1] ∧
    look (demo 0 0x0210410 0 (Chip.reset)) (fun c => [(c.r.get 0).toNat, c.carry.toNat]) = some [6, 1] ∧
    look (demo 0 0x0211081 0 ((((Chip.reset).writeR 0 9).setS 9).setCarry 1)) (fun c => [(c.r.get 0).toNat, c.carry.toNat]) = some [9, 1] ∧
    look (demo 0 0x2014000 0 (Chip.reset)) (fun c => [(c.r.get 0).toNat, c.qReg.toNat]) = some [1, 0] ∧
    look (demo 0 0x2014000 0x28 (Chip.reset)) (fun c => [(c.r.get 0).toNat, c.qReg.toNat]) = some [0, 8] := by
  decide +kernel

/-! The adder, the FIFO, the display, faults, the host's operations -/

/-- The table of 95_test_vectors.md section 2.3. -/
theorem test_adder :
    add .decimal true 19 = .ok (9, 1) ∧ add .decimal true 10 = .ok (0, 1) ∧ add .decimal true 9 = .ok (9, 0) ∧
    add .decimal true 20 = .error (.aluRange 20) ∧ add .binary4 true 15 = .ok (15, 0) ∧
    add .binary4 true 19 = .ok (3, 1) ∧ add .binary4 true 31 = .ok (15, 1) := by
  decide

/-- A3: t = 30 with no consumer. X6: AluRange with t = 30, [30, 0, 0]. A4: QW counts as a consumer although KS
overrides it. X4 and X5: ReservedField, at i = 0 and at i = 3, the window left where it was. X1, X2 and X3: the
addressing faults. R224: ProgAddr with the second read of MACRO_SELECT. R87 and R88 under another layout (R91). -/
theorem test_faults :
    look (demo 0 0x0000108 0 Chip.reset) (fun c => [c.i.val]) = some [1] ∧
    ((after (demo 0 0x0010108 0 Chip.reset)).bind fun t => t.chip.fault.map fun r => (r.cause.code, r.info)) =
      some (5, [30, 0, 0]) ∧
    ((after (demo 0 0x3000108 0x21 Chip.reset)).bind fun t => t.chip.fault.map fun r => r.info) =
      some [30, 0, 0] ∧
    ((after (demo 0 0x10000000 0 Chip.reset)).bind fun t => t.chip.fault.map fun r => (r.cause.code, r.info)) =
      some (4, [0, 0, 0]) ∧
    ((after (demo 3 0xC000000 0 Chip.reset)).bind fun t =>
      t.chip.fault.map fun r => (r.cause.code, r.info, t.chip.i.val)) = some (4, [3, 3, 0], 3) ∧
    ((after { demo 0 0 0 Chip.reset with cfg := { testCfg (rom 0 0) with macroSelect := .given [.lit 105] (.byte 0) } }).bind
      fun t => t.chip.fault.map fun r => (r.cause.code, r.info)) = some (1, [105, 0, 0]) ∧
    ((after secondRead).bind fun t => t.chip.fault.map fun r => (r.cause.code, r.info)) = some (1, [109, 0, 0]) ∧
    ((after (underLayout reversed 0x80000008)).bind fun t => t.chip.fault.map fun r => r.cause.code) = some 4 ∧
    ((after (underLayout reversed 0x30)).bind fun t => t.chip.fault.map fun r => r.cause.code) = some 4 ∧
    ((after { demo 0 0 0 Chip.reset with prog := [(0, 2)] }).bind
      fun t => t.chip.fault.map fun r => (r.cause.code, r.info)) = some (2, [2, 0, 0]) ∧
    ((after { demo 0 0 0 Chip.reset with cfg := { testCfg (rom 0 0) with microSelect := .given (.lit 84) } }).bind
      fun t => t.chip.fault.map fun r => (r.cause.code, r.info)) = some (3, [84, 0, 0]) := by
  decide +kernel

/-- F1: the first step of the FIFO addresses cell 1. DV1: the tick at i = 41 of slot 0. DV4: slot 5 shows index 3,
its dot latched. -/
theorem test_fifo_and_display :
    (Chip.reset.fifoStep 5).fifoOutput = 0 ∧ (Chip.reset.fifoStep 5).fifoCycle = 1 ∧
    (Chip.reset.fifoStep 5).fifoData.get 1 = 5 ∧ (Chip.reset.fifoStep 5).fifoInput = 5 ∧
    ((after (demo 41 0 0 Chip.reset)).map fun t => (eventsIn t.out, t.chip.slot, t.chip.i)) =
      some ([⟨-1, 15, 0⟩], 1, 0) ∧
    ((after { demo 41 0 0 { Chip.reset with slot := 5 } with
        cfg := { testCfg (rom 41 0) with displayValue := .given (.mod .slot (.lit 10)) (.equal .slot (.lit 5)) } }).map
      fun t => (eventsIn t.out, t.chip.dot, t.chip.showDot.get 5)) = some ([⟨3, 5, 1⟩], 1, 1) := by
  decide +kernel

/-- E9: the glyph codes. -/
theorem test_e9_glyphs :
    [glyph 9, glyph 10, glyph 11, glyph 12, glyph 13, glyph 14, glyph 15] =
      [.numeral 9, .minus, .letterL, .letterC, .letterR, .letterE, .blank] := by
  decide

/-- E8: corners of the keycode table, each a code of the table; 0x2A is none. -/
theorem test_e8_keycodes :
    keycode .k0 = 0x21 ∧ keycode .k9 = 0xB1 ∧ keycode .add = 0x28 ∧ keycode .keyF = 0xB9 ∧
    isKeycode 0x21 = true ∧ isKeycode 0xB9 = true ∧ isKeycode 0x2A = false ∧ isKeycode 0 = false := by
  decide

/-- E7: a load of 98 bytes into a store of 105 is refused. E7: a load of 105 bytes; byte 0 is no entry of the list,
byte 104 is the last. S3: calc_init clears a fault. -/
theorem test_host_operations :
    ((after { demo 0 0 0 Chip.reset with pending := [.load (List.replicate 98 1)] }).map fun t => (t.out, t.prog)) =
      some (.loadRefused, []) ∧
    ((after { demo 0 0 0 Chip.reset with
        pending := [.load ((List.range 105).map (BitVec.ofNat 8 ·))] }).map fun t =>
      (t.out, t.prog.length, t.prog.head?, Memory.read t.prog 104)) = some (.loaded, 104, some (1, 1), 104) ∧
    ((after { demo 7 0 0 { Chip.reset with fault := some ⟨.microAddr 84, 7, 0⟩ } with pending := [.init none] }).map
      fun t => (t.chip.fault, t.chip.i, t.out)) = some (none, 0, .initDone) := by
  decide +kernel

/-! A witness for the hypotheses of every statement -/

/-- What the fetch stages hand on under such a configuration. -/
def fetchedOf (w : MicroWord) (c : Chip) (ops : Micro) : Fetched where
  aki := if c.i = 0 then 0 else c.aki
  ak := if c.i = 0 then 0 else c.ak
  ua := 0
  u := w
  ops := ops

/-- Under such a configuration every legal word and every unfaulted CORE meet the hypothesis Fetching. -/
theorem fetching_of_cfg {s : State} {g : Cfg} {w : MicroWord} {ops : Micro} {key : Byte} {mode : AngularMode}
    {rest : List HostOp} (hg : s.cfg = fetchingCfg g w) (hd : decode .standard w = .ok ops)
    (hp : s.pending = .tick key mode :: rest) (hc : s.chip.fault = none) :
    Fetching s key mode rest (fetchedOf w s.chip ops) := by
  refine ⟨hp, hc, ?_⟩
  have hm : fetchMacro s = .ok ((fetchedOf w s.chip ops).aki, (fetchedOf w s.chip ops).ak) := by
    by_cases h0 : s.chip.i = 0 <;> simp [fetchMacro, fetchedOf, h0, hg, fetchingCfg, macroSelect, selectGiven, Select.run, Expr.eval]
  have hu : fetchMicro s (fetchedOf w s.chip ops).ak = .ok (0, w) := by
    simp [fetchMicro, hg, fetchingCfg, microSelect, Expr.eval]
  have hs : decodeStage s.cfg.layout 0 w = .ok ops := by simp [decodeStage, hg, fetchingCfg, hd]
  simp only [fetch, hm, hu, hs]
  rfl

/-- A tick of NOP answers a next state without a fault. -/
theorem nop_step {s : State} {key : Byte} {mode : AngularMode} {rest : List HostOp} {f : Fetched}
    (h : Fetching s key mode rest f) (hf : f.ops = []) :
    ∃ t, step s = .next t ∧ t.chip.fault = none ∧ t.cfg = s.cfg ∧ t.pending = rest := by
  rcases step_cases s with ⟨hp, _⟩ | ⟨op, rest', hp, e⟩
  · rw [h.pending] at hp; cases hp
  · rw [h.pending] at hp; cases hp
    rcases calcStep_cases key mode (s.withPending rest) with ⟨r, hr, _⟩ | ⟨_, flt, hflt, _⟩ | ⟨_, f', hf', e'⟩
    · exact absurd hr (by simp [h.noFault])
    · rw [fetch_withPending, h.fetched] at hflt; cases hflt
    · rw [fetch_withPending, h.fetched] at hf'; cases hf'
      obtain ⟨x, y, z, _, ⟨_, hu, _⟩ | ⟨sum, cout, d, _, _, e3⟩⟩ := runMicro_cases f key mode (s.withPending rest)
      · simp [hf, usesSum] at hu
      · refine ⟨_, e.trans (Eq.trans e' e3), ?_, rfl, rfl⟩
        rw [(finishTick_registers _ _ _).2.2.2.2.2.1]
        exact h.noFault

/-- Any number of ticks of NOP runs clean. -/
theorem nop_cleanTicks (g : Cfg) (n : Nat) (rest : List HostOp) {s : State} (hg : s.cfg = fetchingCfg g 0)
    (hp : s.pending = List.replicate n (.tick 0 .radians) ++ rest) (hc : s.chip.fault = none) :
    ∃ t, cleanTicks n s = some t ∧ t.cfg = s.cfg ∧ t.pending = rest ∧ t.chip.fault = none := by
  induction n generalizing s with
  | zero => exact ⟨s, rfl, rfl, hp, hc⟩
  | succ n ih =>
    have hp' : s.pending = .tick 0 .radians :: (List.replicate n (.tick 0 .radians) ++ rest) := hp
    obtain ⟨t, e, ht, htc, htp⟩ := nop_step
      (fetching_of_cfg hg (show decode .standard 0 = .ok [] by decide) hp' hc) rfl
    obtain ⟨u, eu, hu⟩ := ih (s := t) (htc.trans hg) htp ht
    refine ⟨u, ?_, hu.1.trans htc, hu.2⟩
    simp only [cleanTicks, hp', e, ht, if_true, eu]

theorem witness_DecodeOfEncode :
    reversed.WellFormed = true ∧ Micro.WellFormed [.a10NC, .b6, .gNK, .rwRSum, .r2Sum, .swQSum, .ks, .stRot] := by
  refine ⟨by decide +kernel, by decide⟩

theorem witness_EncodeOfDecode :
    reversed.WellFormed = true ∧ decode reversed 0x80008000 = .ok [.aR, .rwSum] :=
  ⟨witness_DecodeOfEncode.1, test_decode_other_layout.1⟩

theorem witness_WordSelectsMatchingRows : decode .standard 0x0210801 = .ok [.aR, .b1, .rwSum, .cw] := by decide

/-- The four clauses: a combined word, one that raises AluRange, a lone source, a lone write-back. -/
theorem witness_StepRunsDecodedMicroinstruction :
    (∃ s1 s2 s3, runOps [.aR, .b1] (beginTick 0 .radians (single .ring .decimal 0x0210801 (win 0) [])) = .next s1 ∧
      addStage [.aR, .b1, .rwSum, .cw] s1 = .ok s2 ∧ runOps [.rwSum, .cw] s2 = .next s3) ∧
    (∃ s1 flt, runOps [.aNR, .bNS] (beginTick 0 .radians (single .ring .decimal 0x0010108 (win 0) [])) = .next s1 ∧
      addStage [.aNR, .bNS, .rwSum] s1 = .error flt) ∧
    (∃ s1 s2, exec .aR (beginTick 0 .radians (single .ring .decimal 0x1 (win 0) [])) = .next s1 ∧
      addStage [.aR] s1 = .ok s2) ∧
    (∃ s1 s2, addStage [.rwR3] (beginTick 0 .radians (single .ring .decimal 0x8000 (win 0) [])) = .ok s1 ∧
      exec .rwR3 s1 = .next s2) := by
  refine ⟨⟨_, _, _, rfl, rfl, rfl⟩, ⟨_, _, rfl, rfl⟩, ⟨_, _, rfl, rfl⟩, ⟨_, _, rfl, rfl⟩⟩

/-- Every micro-operation alone, at either end of the window, meets Fetching and InRange together: the hypotheses of
TickCompletes, BankRAfterTick, BankStAfterTick, ScalarsAfterTick, BankMAndFifoAfterTick, DisplayAtEndOfPeriod. -/
theorem witness_ticks (i : Instr) (w : Fin 42) (hw : w = 0 ∨ w = 41) :
    ∃ f, Fetching (single .ring .decimal (encode [i]) (win w) []) 0 .radians [] f ∧
      InRange (single .ring .decimal (encode [i]) (win w) []) 0 f ∧ f.ops = [i] := by
  have hd : decode .standard (encode [i]) = .ok [i] := by cases i <;> rfl
  refine ⟨_, fetching_of_cfg rfl hd rfl rfl, .inl ?_, rfl⟩
  show totalOf [i] (win w) 0 ≤ 19
  rcases hw with rfl | rfl <;> cases i <;> decide

/-- A tick with no field set: the clauses on fields that are 0, and the hypothesis of NopWritesNoRegister. -/
theorem witness_NopWritesNoRegister :
    Fetching (single .detached .binary4 0 (win 41) []) 0 .radians [] (fetchedOf 0 (win 41) []) ∧
      InRange (single .detached .binary4 0 (win 41) []) 0 (fetchedOf 0 (win 41) []) ∧
      (fetchedOf 0 (win 41) []).u = 0 :=
  ⟨fetching_of_cfg rfl (by decide) rfl rfl, .inr (.inl rfl), rfl⟩

/-- t = 30: out of range under DECIMAL with a consumer (AluRangeExactly), in range under BINARY4, in range where
nothing consumes it. -/
theorem witness_AluRangeExactly :
    Fetching (single .ring .decimal 0x0010108 (win 0) []) 0 .radians [] (fetchedOf 0x0010108 (win 0) [.aNR, .bNS, .rwSum]) ∧
      tickTotal (single .ring .decimal 0x0010108 (win 0) []) 0 (fetchedOf 0x0010108 (win 0) [.aNR, .bNS, .rwSum]) = 30 ∧
      InRange (single .ring .binary4 0x0010108 (win 0) []) 0 (fetchedOf 0x0010108 (win 0) [.aNR, .bNS, .rwSum]) ∧
      InRange (single .ring .decimal 0x0000108 (win 0) []) 0 (fetchedOf 0x0000108 (win 0) [.aNR, .bNS]) :=
  ⟨fetching_of_cfg rfl (by decide) rfl rfl, by decide, .inr (.inl rfl), .inr (.inr rfl)⟩

/-- A tick from an unfaulted state that answers a next state: TickIsClosedForm, TickFrame, StepKeepsConfiguration,
BusCarriesNothing, at i = 0 and at i = 1 (MacroLatchHeldInPeriod, ProgramStoreReadOnlyAtZero). -/
theorem witness_clean_tick :
    (∃ t, step (single .ring .decimal 0 (win 0) []) = .next t ∧ t.chip.fault = none) ∧
    (∃ t, step (single .ring .decimal 0 (win 1) []) = .next t ∧ t.chip.fault = none) ∧ (win 1).i ≠ 0 ∧
    (single .ring .decimal 0 (win 0) []).pending = [.tick 0 .radians] ∧
    (single .ring .decimal 0 (win 0) []).chip.fault = none := by
  have h (w : Fin 42) : ∃ t, step (single .ring .decimal 0 (win w) []) = .next t ∧ t.chip.fault = none := by
    obtain ⟨t, e, h, -⟩ := nop_step (fetching_of_cfg (s := single .ring .decimal 0 (win w) []) rfl
      (show decode .standard 0 = .ok [] by decide) rfl rfl) rfl
    exact ⟨t, e, h⟩
  exact ⟨h 0, h 1, by decide, rfl, rfl⟩

/-- A tick that records a fault, another tick after it (FaultEntryIsPrecise). -/
theorem witness_FaultEntryIsPrecise :
    ∃ t r, (single .ring .decimal 0x10000000 (win 3) [.tick 1 .grads]).chip.fault = none ∧
      step (single .ring .decimal 0x10000000 (win 3) [.tick 1 .grads]) = .next t ∧ t.chip.fault = some r := by
  refine ⟨_, _, rfl, rfl, rfl⟩

/-- A faulted state before a calc_step (FaultedTickIsStuck) and before a calc_init that clears the fault
(OnlyInitClearsFault, CalcInitResets). -/
theorem witness_faulted_states :
    (single .ring .decimal 0 { win 3 with fault := some ⟨.aluRange 20, 3, 0⟩ } []).chip.fault =
      some ⟨.aluRange 20, 3, 0⟩ ∧
    ∃ t, step ((single .ring .decimal 0 { win 3 with fault := some ⟨.aluRange 20, 3, 0⟩ } []).withPending
      [.init none]) = .next t ∧ t.chip.fault = none := by
  refine ⟨rfl, _, rfl, rfl⟩

/-- The three clauses: a first read at 105, the least address out of range, and a second one at 109 after a read in
range; the least index out of the command table, 2, and out of the microinstruction table, 84. -/
theorem witness_AddressingFaults :
    (∃ s : State, s.pending = [.tick 0 .radians] ∧ s.chip.fault = none ∧ s.chip.i = 0 ∧
      firstOutOfRange s.cfg.progLen s.prog (macroSelect s.cfg s.chip) = some 105) ∧
    (secondRead.pending = [.tick 0 .radians] ∧ secondRead.chip.fault = none ∧ secondRead.chip.i = 0 ∧
      firstOutOfRange secondRead.cfg.progLen secondRead.prog (macroSelect secondRead.cfg secondRead.chip) = some 109) ∧
    (∃ s : State, s.pending = [.tick 0 .radians] ∧ s.chip.fault = none ∧ s.chip.i = 0 ∧
      Select.run (memRead s.cfg.progLen s.prog) (macroSelect s.cfg s.chip) = .ok 2 ∧ s.cfg.cmdRom.length = 2) ∧
    (∃ s : State, s.pending = [.tick 0 .radians] ∧ s.chip.fault = none ∧ fetchMacro s = .ok (1, 1) ∧
      microSelect s.cfg 1 s.chip = 84 ∧ s.cfg.urom.length = 84) :=
  ⟨⟨{ demo 0 0 0 Chip.reset with cfg := { testCfg (rom 0 0) with macroSelect := .given [.lit 105] (.byte 0) } },
      rfl, rfl, rfl, rfl⟩,
    ⟨rfl, rfl, rfl, rfl⟩,
    ⟨{ demo 0 0 0 Chip.reset with prog := [(0, 2)] }, rfl, rfl, rfl, rfl, rfl⟩,
    ⟨{ demo 0 0 0 Chip.reset with
        prog := [(0, 1)], cfg := { testCfg (rom 0 0) with microSelect := .given (.lit 84) } }, rfl, rfl, rfl, rfl,
      by simp [testCfg, rom]⟩⟩

/-- ReservedWordFaults and ReservedWordFaultsUnderEveryLayout: under any layout any word is fetched; the standard one and another each have a word with a reserved bit and one
with STW = 3. -/
theorem witness_ReservedWordFaults :
    (∀ l w, (underLayout l w).pending = [.tick 0 .radians] ∧ (underLayout l w).chip.fault = none ∧
      (underLayout l w).cfg.layout = l ∧ fetchMacro (underLayout l w) = .ok (0, 0) ∧
      (underLayout l w).cfg.urom[microSelect (underLayout l w).cfg 0 (underLayout l w).chip]? = some w) ∧
    ReservedUnder .standard 0x10000000 ∧ ReservedUnder .standard 0xC000000 ∧
    ReservedUnder reversed 0x80000008 ∧ ReservedUnder reversed 0x30 :=
  ⟨fun _ _ => ⟨rfl, rfl, rfl, rfl, rfl⟩, .inl (by decide), .inr (by decide),
    .inl ⟨3, by decide +kernel, by decide⟩, .inr ⟨by decide +kernel, by decide +kernel⟩⟩

theorem witness_FifoDelaysBy252 : (List.replicate 251 (7 : Nibble)).length = 251 := List.length_replicate

/-- 253 clean ticks and 41 more under RING. -/
theorem witness_RingReturnsValueToM :
    ∃ s t u v, s.cfg.fifoLink = .ring ∧ cleanTicks 1 s = some t ∧ cleanTicks 252 t = some u ∧
      cleanTicks 41 u = some v := by
  obtain ⟨t, et, ht, hp, hc⟩ := nop_cleanTicks { testCfg [] with fifoLink := .ring } 1
    (List.replicate 252 (.tick 0 .radians) ++ List.replicate 41 (.tick 0 .radians))
    (s := single .ring .decimal 0 (win 0)
      (List.replicate 252 (.tick 0 .radians) ++ List.replicate 41 (.tick 0 .radians))) rfl rfl rfl
  obtain ⟨u, eu, hu, hp', hc'⟩ := nop_cleanTicks _ 252 _ ht hp hc
  obtain ⟨v, ev, -⟩ := nop_cleanTicks _ 41 [] (hu.trans ht) (by simpa using hp') hc'
  exact ⟨_, t, u, v, rfl, et, eu, ev⟩

/-- From the reset CORE, any number of clean ticks (CountersCountTicks, DisplayCadence). -/
theorem witness_DisplayCadence (n : Nat) : ∃ s t, s.chip = Chip.reset ∧ cleanTicks (42 * n) s = some t := by
  obtain ⟨t, e, -⟩ := nop_cleanTicks (testCfg []) (42 * n) []
    (s := { single .ring .decimal 0 Chip.reset [] with
      cfg := fetchingCfg (testCfg []) 0, pending := List.replicate (42 * n) (.tick 0 .radians) }) rfl (by simp) rfl
  exact ⟨_, t, rfl, e⟩

theorem witness_FreeKeysDistinct : Config.initial.keyQ = .free := rfl

theorem witness_ModeReachesOnlyKeypadSample :
    Fetching (single .ring .decimal 0x0010800 (win 0) []) 0 .radians [] (fetchedOf 0x0010800 (win 0) [.b1, .rwSum]) ∧
      .ks ∉ (fetchedOf 0x0010800 (win 0) [.b1, .rwSum]).ops ∧
      keyQ (testCfg []) 0x28 .radians (win 0) = keyQ (testCfg []) 0x28 .grads (win 0) :=
  ⟨fetching_of_cfg rfl (by decide) rfl rfl, by decide, rfl⟩

/-- The host's operations: any of them can be the oldest, or none, over a program store in canonical form, and an
array can have the right or the wrong length (LoadWritesProgramStore, DumpAfterLoad, CalcInitResets,
NoCallHoldsState). -/
theorem witness_host_operations (ops : List HostOp) :
    ∃ s : State, s.pending = ops ∧ Memory.wf s.prog ∧
      (List.replicate 105 (255 : Byte)).length = s.cfg.progLen ∧ (List.replicate 98 (255 : Byte)).length ≠ s.cfg.progLen :=
  ⟨(single .ring .decimal 0 (win 0) []).withPending ops, rfl, ⟨List.Pairwise.nil, fun _ h => nomatch h⟩, rfl,
    show (List.replicate 98 (255 : Byte)).length ≠ 105 by decide⟩

/-- A state with a program, between two periods, that meets the invariant and steps. -/
theorem witness_StepKeepsInv :
    ∃ s t, MachineInv s ∧ step s = .next t ∧ s.prog ≠ [] := by
  obtain ⟨t, e, -⟩ := nop_step (fetching_of_cfg
    (s := (single .ring .decimal 0 (win 0) []).withProg [(3, 7), (104, 1)]) rfl
    (show decode .standard 0 = .ok [] by decide) rfl rfl) rfl
  exact ⟨_, t, { cfg := ⟨by decide, by decide, by decide, by decide, rfl, by decide, by decide⟩
                 progWf := by decide
                 progBelow := by decide
                 bus := rfl
                 aki := by decide
                 ak := by decide
                 held := fun h => absurd rfl h
                 ua := by decide
                 legal := ⟨[], by decide⟩
                 fault := fun r h => nomatch (show (none : Option FaultRecord) = some r from h)
                 lockstep := by decide }, e, by decide⟩

end Sys2Proof.Tests
end

/-! PROOFS. Facts about the model that the proofs of the scope family use: the word 0 under every layout, the adder's
range, the counters of a tick, the words of an ST triple. -/

namespace Sys2Proof.Machine

theorem reservedBitSet_zero (l : Layout) : l.reservedBitSet 0 = false := by
  cases l with
  | standard => rfl
  | custom pos => simp [Layout.reservedBitSet]

theorem gather_zero (l : Layout) : l.gather 0 = 0 := by
  cases l with
  | standard => rfl
  | custom pos =>
    ext k hk
    simp [Layout.gather, BitVec.getElem_ofFnLE]

/-- The word 0 selects nothing (R86). -/
theorem decode_zero (l : Layout) : decode l 0 = .ok [] := by
  simp only [decode, reservedBitSet_zero, gather_zero]
  decide

/-- t is at most 15 + 15 + 1 (R148). -/
theorem Bus.total_le (b : Bus) : b.total ≤ 31 := by
  have := b.alpha.isLt
  have := b.beta.isLt
  have := b.gamma.isLt
  unfold Bus.total
  omega

/-- A counter modulo 252 and one modulo 42 that agree modulo 42 still do when both advance, since 42 divides 252
(R196). -/
theorem lockstep_succ {k : Fin 252} {i : Fin 42} (h : k.val % 42 = i.val) : (k + 1).val % 42 = (i + 1).val := by
  simp only [Fin.val_add, Fin.val_one]
  omega

/-- The three words of a triple at i do not overlap, so each holds what was written into it, and every other word of
ST is as before. -/
theorem Chip.writeTriple_words (c : Chip) (x y z : Nibble) :
    (c.writeTriple x y z).st.get c.i = x ∧ (c.writeTriple x y z).st.get (c.i + 1) = y ∧
      (c.writeTriple x y z).st.get (c.i + 2) = z ∧
      ∀ k, k ≠ c.i → k ≠ c.i + 1 → k ≠ c.i + 2 → (c.writeTriple x y z).st.get k = c.st.get k := by
  obtain ⟨h01, h02, h12, -⟩ := window_words_differ c.i
  refine ⟨?_, ?_, ?_, fun k h0 h1 h2 => ?_⟩ <;> rw [Chip.writeTriple_get]
  · rw [if_pos rfl]
  · rw [if_neg h01.symm, if_pos rfl]
  · rw [if_neg h02.symm, if_neg h12.symm, if_pos rfl]
  · rw [if_neg h0, if_neg h1, if_neg h2]

end Sys2Proof.Machine

/-! PROOFS. The invariant (MachineInv): each operation of a step keeps it, and the state after reset meets it. -/

namespace Sys2Proof.Safety

open Sys2Proof.Machine

/-! What the invariant does not read, and what it asks of the program store and of the CORE -/

/-- The invariant reads neither the host's operations to come nor what the last one returned. -/
theorem MachineInv.congr {s t : State} (h : MachineInv s) (hchip : t.chip = s.chip) (hprog : t.prog = s.prog)
    (hcfg : t.cfg = s.cfg) (hbus : t.bus = s.bus) : MachineInv t := by
  obtain ⟨chip, prog, cfg, bus, pending, out⟩ := t
  cases hchip; cases hprog; cases hcfg; cases hbus
  exact ⟨h.cfg, h.progWf, h.progBelow, h.bus, h.aki, h.ak, h.held, h.ua, h.legal, h.fault, h.lockstep⟩

theorem MachineInv.withOut {s : State} (h : MachineInv s) (o : Result) : MachineInv (s.withOut o) :=
  h.congr rfl rfl rfl rfl

theorem MachineInv.withPending {s : State} (h : MachineInv s) (ops : List HostOp) : MachineInv (s.withPending ops) :=
  h.congr rfl rfl rfl rfl

theorem MachineInv.withProg {s : State} (h : MachineInv s) {m : Memory} (hwf : Memory.wf m)
    (hbelow : Memory.below m s.cfg.progLen) : MachineInv (s.withProg m) :=
  { h with progWf := hwf, progBelow := hbelow }

/-- calc_init establishes the invariant from the configuration's constraints alone (R250). -/
theorem initialised_meetsInv {s : State} (hcfg : CfgOk s.cfg) {m : Memory} (hwf : Memory.wf m)
    (hbelow : Memory.below m s.cfg.progLen) : MachineInv (s.initialised m) where
  cfg := hcfg
  progWf := hwf
  progBelow := hbelow
  bus := rfl
  aki := hcfg.cmdRom
  ak := Nat.two_pow_pos _
  held := fun h => absurd rfl h
  ua := hcfg.urom
  legal := ⟨[], decode_zero _⟩
  fault := fun _ h => nomatch h
  lockstep := rfl

/-! The host's operations other than the tick -/

theorem hostInit_keepsInv {s : State} (h : MachineInv s) (prog : Option (List Byte)) :
    MachineInv (hostInit prog s) := by
  cases prog with
  | none => exact initialised_meetsInv h.cfg h.cfg.progWf h.cfg.progBelow
  | some p =>
    simp only [hostInit]
    split
    · next hlen => exact initialised_meetsInv h.cfg (Memory.ofBytes_wf p) (Memory.ofBytes_below hlen.le)
    · exact h.withOut _

theorem hostLoad_keepsInv {s : State} (h : MachineInv s) (p : List Byte) : MachineInv (hostLoad p s) := by
  unfold hostLoad
  split
  · next hlen =>
    exact (h.withProg (Memory.writeFrom_wf p h.progWf 0)
      (Memory.writeFrom_below p h.progBelow (by omega))).withOut _
  · exact h.withOut _

/-! A tick that ends in a fault -/

/-- Fault entry keeps the invariant when the record fits the state it is taken in (R222). -/
theorem MachineInv.takeFault {s : State} (h : MachineInv s) {flt : Fault}
    (hfits : FaultFits s.cfg s.chip (s.recordOf flt)) : MachineInv (s.takeFault flt) :=
  { h with
    bus := rfl
    fault := fun r hr => by
      obtain rfl : s.recordOf flt = r := Option.some.inj hr
      exact hfits }

/-- A fault of the fetch stages fits the state it is raised in (R220, R221). -/
theorem faultFits_of_fetch_error {s : State} {flt : Fault} (h : fetch s = .error flt) :
    FaultFits s.cfg s.chip (s.recordOf flt) := by
  refine ⟨rfl, rfl, ?_⟩
  rcases fetch_error h with ⟨a, rfl, ha⟩ | ⟨aki, rfl, haki⟩ | ⟨ua, rfl, hua⟩ | ⟨ua, rfl, hua⟩
  · exact ha
  · exact haki
  · exact hua
  · exact hua

/-! A tick that ends clean -/

/-- Whether newly selected or latched, AK is the command table's word at AKI (R111). -/
theorem fetch_ok_macroWord {s : State} (h : MachineInv s) {f : Fetched} (hf : fetch s = .ok f) :
    s.cfg.cmdRom[f.aki]? = some f.ak := by
  obtain ⟨hm, -⟩ := fetch_ok hf
  rcases fetchMacro_cases s with ⟨hi, e⟩ | ⟨-, aki, ak, hrom, e⟩ | ⟨-, a, -, e⟩ | ⟨-, aki, -, e⟩
  · obtain ⟨haki, hak⟩ := Prod.mk.inj (Except.ok.inj (hm.symm.trans e))
    rw [haki, hak]
    exact h.held hi
  · cases hm.symm.trans e
    exact hrom
  · exact nomatch hm.symm.trans e
  · exact nomatch hm.symm.trans e

/-- The end of a clean tick keeps the invariant, whatever its write-back `d` put into the registers. -/
theorem finishTick_keepsInv {s : State} (h : MachineInv s) (hnone : s.chip.fault = none) {f : Fetched}
    (hf : fetch s = .ok f) (b : Bus) (d : Chip) :
    MachineInv (finishTick s.chip f ((s.withBus b).withChip (s.chip.rewritten d))) := by
  obtain ⟨-, -, hword, hlegal⟩ := fetch_ok hf
  have hmacro := fetch_ok_macroWord h hf
  obtain ⟨-, -, -, -, -, hfault, hi⟩ := finishTick_registers s.chip f ((s.withBus b).withChip (s.chip.rewritten d))
  obtain ⟨-, -, hcycle, -⟩ := finishTick_fifo s.chip f ((s.withBus b).withChip (s.chip.rewritten d))
  exact
    { cfg := h.cfg
      progWf := h.progWf
      progBelow := h.progBelow
      bus := rfl
      aki := (List.getElem?_eq_some_iff.1 hmacro).1
      ak := h.cfg.cmdWords _ (List.mem_of_getElem? hmacro)
      held := fun _ => hmacro
      ua := (List.getElem?_eq_some_iff.1 hword).1
      legal := ⟨f.ops, hlegal⟩
      fault := fun r hr => by
        rw [hfault] at hr
        exact absurd (hnone.symm.trans hr) nofun
      lockstep := by
        rw [hcycle, hi]
        exact lockstep_succ h.lockstep }

/-! The step -/

theorem runMicro_keepsInv {s t : State} (h : MachineInv s) (hnone : s.chip.fault = none) {f : Fetched}
    (hf : fetch s = .ok f) {key : Byte} {mode : AngularMode} (ht : runMicro f key mode s = .next t) :
    MachineInv t := by
  obtain ⟨x, y, z, -, ⟨hdec, -, htotal, e⟩ | ⟨sum, cout, d, -, -, e⟩⟩ := runMicro_cases f key mode s <;>
    rw [ht] at e <;> cases e
  · exact h.takeFault ⟨rfl, rfl, htotal, Bus.total_le _, hdec⟩
  · exact finishTick_keepsInv h hnone hf _ d

theorem calcStep_keepsInv {s t : State} (h : MachineInv s) {key : Byte} {mode : AngularMode}
    (ht : calcStep key mode s = .next t) : MachineInv t := by
  rcases calcStep_cases key mode s with ⟨r, -, e⟩ | ⟨-, flt, hflt, e⟩ | ⟨hnone, f, hf, e⟩
  · cases ht.symm.trans e
    exact h.withOut _
  · cases ht.symm.trans e
    exact h.takeFault (faultFits_of_fetch_error hflt)
  · exact runMicro_keepsInv h hnone hf (e.symm.trans ht)

theorem hostStep_keepsInv {s t : State} (h : MachineInv s) {op : HostOp} (ht : hostStep op s = .next t) :
    MachineInv t := by
  cases op with
  | init prog => cases ht; exact hostInit_keepsInv h prog
  | tick key mode => exact calcStep_keepsInv h ht
  | load p => cases ht; exact hostLoad_keepsInv h p
  | dump => cases ht; exact h.withOut _

/-- Settles O57: by the case of the step, each host operation on its own. -/
theorem stepKeepsInv : Obligations.StepKeepsInv := by
  intro s t h ht
  rcases step_cases s with ⟨-, e⟩ | ⟨op, rest, -, e⟩
  · cases ht.symm.trans e
    exact h
  · exact hostStep_keepsInv (h.withPending rest) (e.symm.trans ht)

/-! The state after reset -/

/-- The initial configuration keeps its constraints whatever its free values are (R9): a macro word is cut to
CMD_WORD_BITS bits, and both tables have a first word. -/
theorem cfgOk_initial : CfgOk Config.initial where
  cmdWordBits := Nat.succ_pos _
  cmdRom := by simp [Config.initial]
  cmdWords := by
    intro w hw
    obtain ⟨v, -, rfl⟩ := List.mem_map.1 hw
    exact Nat.mod_lt _ (Nat.two_pow_pos _)
  urom := Nat.succ_pos _
  layout := rfl
  progWf := State.reset_prog_wf
  progBelow := nofun

/-- Settles O58: reset is calc_init without a program under the initial configuration, but for the answer to the
host. -/
theorem resetMeetsInv : Obligations.ResetMeetsInv :=
  (initialised_meetsInv (s := State.reset) cfgOk_initial cfgOk_initial.progWf cfgOk_initial.progBelow).congr
    rfl rfl rfl rfl

end Sys2Proof.Safety

/-! PROOFS. Micro-operations on their own that write several words, or a word off the window, and the key event of
no key. -/

namespace Sys2Proof.Machine

open Sys2Proof.Safety

/-- A micro-operation whose meaning is one write of R puts its value there and does nothing else. -/
theorem putsR_of_exec_writeR {i : Instr} {j : State → Fin 42} {v : State → Nibble}
    (h : ∀ s, exec i s = .next (s.withChip (s.chip.writeR (j s) (v s)))) : PutsR i j v := fun s =>
  ⟨_, h s, (Chip.writeR_get _ _ _ _).trans (if_pos rfl), fun _ hk => (Chip.writeR_get _ _ _ _).trans (if_neg hk),
    rfl, fun _ => rfl⟩

/-- Settles O10: each is one write of sum into R, behind the window. -/
theorem auxiliaryWritesBehindWindow : Obligations.AuxiliaryWritesBehindWindow :=
  ⟨putsR_of_exec_writeR fun _ => rfl, putsR_of_exec_writeR fun _ => rfl⟩

/-- Writing a triple changes nothing but ST. -/
theorem onlyST_writeTriple (s : State) (x y z : Nibble) : OnlyST s (s.withChip (s.chip.writeTriple x y z)) :=
  ⟨rfl, fun _ => rfl⟩

/-- Settles O14: each is one triple at i, of values read before it is written. -/
theorem stUpdatesWriteTriple : Obligations.StUpdatesWriteTriple := by
  refine ⟨fun s => ⟨_, rfl, ?_⟩, fun s => ⟨_, rfl, ?_⟩⟩
  · obtain ⟨h0, h1, h2, hrest⟩ := s.chip.writeTriple_words s.bus.sum s.chip.sti s.chip.sti1
    exact ⟨h0, h1, h2, hrest, onlyST_writeTriple s _ _ _⟩
  · obtain ⟨h0, h1, h2, hrest⟩ := s.chip.writeTriple_words s.chip.sti1 s.chip.sti2 s.chip.sti
    exact ⟨h0, h1, h2, hrest, onlyST_writeTriple s _ _ _⟩

/-- Settles O44: KEY_EVENT answers 0 for the keycode 0 before it looks at its parameter (R207). -/
theorem noKeyNoEvent : Obligations.NoKeyNoEvent := fun _ _ => if_pos rfl

end Sys2Proof.Machine

/-! PROOFS. What the fetch stages hand on, and how the tick's stages make up the tick: facts about a tick that the
proofs of the state family use. -/

namespace Sys2Proof.Machine

open Sys2Proof.Safety

/-! The fetch stages -/

/-- Within a period the macro word is the latched one (R111). -/
theorem fetchMacro_of_ne_zero {s : State} (h : s.chip.i ≠ 0) : fetchMacro s = .ok (s.chip.aki, s.chip.ak) := if_neg h

/-- What FetchMacro hands on when it succeeds: newly selected at i = 0, else the latched pair (R111). -/
theorem fetchMacro_ok {s : State} {aki ak : Nat} (h : fetchMacro s = .ok (aki, ak)) :
    (s.chip.i = 0 → Select.run (memRead s.cfg.progLen s.prog) (macroSelect s.cfg s.chip) = .ok aki ∧
      s.cfg.cmdRom[aki]? = some ak) ∧
    (s.chip.i ≠ 0 → aki = s.chip.aki ∧ ak = s.chip.ak) := by
  unfold fetchMacro at h
  split at h
  · next hi =>
    refine ⟨fun _ => ?_, fun h0 => absurd hi h0⟩
    split at h
    · cases h
    · next hrun =>
      split at h
      · cases h
      · next hrom =>
        cases h
        exact ⟨hrun, hrom⟩
  · next hi =>
    cases h
    exact ⟨fun h0 => absurd h0 hi, fun _ => ⟨rfl, rfl⟩⟩

/-- A microinstruction that the stages answer is the one that R111-R113 name. -/
theorem fetches_of_fetch_ok {s : State} {f : Fetched} (h : fetch s = .ok f) : Fetches s f := by
  obtain ⟨hmacro, hua, hword, hops⟩ := fetch_ok h
  obtain ⟨hnew, hheld⟩ := fetchMacro_ok hmacro
  exact ⟨hnew, hheld, hua, hword, hops⟩

/-! The terms: one source after another ORs in what the closed form says (R145-R147) -/

/-- A contribution that either of two selections brings in is in the OR of both. -/
theorem contribution_or {w : Nat} (p q : Prop) [Decidable p] [Decidable q] (x : BitVec w) :
    (if p ∨ q then x else 0) = (if p then x else 0) ||| (if q then x else 0) := by
  by_cases hp : p <;> by_cases hq : q <;> simp [hp, hq]

theorem alphaOf_cons (i : Instr) (ops : Micro) (c : Chip) :
    alphaOf (i :: ops) c = alphaOf [i] c ||| alphaOf ops c := by
  simp only [alphaOf, List.mem_cons, List.not_mem_nil, or_false, or_and_right, contribution_or]
  ac_rfl

theorem betaOf_cons (i : Instr) (ops : Micro) (c : Chip) :
    betaOf (i :: ops) c = betaOf [i] c ||| betaOf ops c := by
  simp only [betaOf, List.mem_cons, List.not_mem_nil, or_false, contribution_or]
  ac_rfl

theorem gammaOf_cons (i : Instr) (ops : Micro) (c : Chip) (ke : Bit) :
    gammaOf (i :: ops) c ke = gammaOf [i] c ke ||| gammaOf ops c ke := by
  simp only [gammaOf, List.mem_cons, List.not_mem_nil, or_false, contribution_or]
  ac_rfl

/-- A source joins its own contribution to its term (R130-R144). -/
theorem exec_source_terms {i : Instr} (h : isSource i = true) (s : State) :
    exec i s = .next (s.withBus (s.bus.joined (alphaOf [i] s.chip) (betaOf [i] s.chip)
      (gammaOf [i] s.chip s.bus.ke))) := by
  cases i
  case aR | aM | aST | aNR | a10NC | aS | a4 =>
    refine (congrArg Host.Outcome.next (State.orAlpha_eq s _)).trans ?_
    simp [alphaOf, betaOf, gammaOf, complement4_eq, Chip.ri, Chip.mi, Chip.sti, tenIfClear]
  case bS | bNS | bQ | b6 | b1 =>
    refine (congrArg Host.Outcome.next (State.orBeta_eq s _)).trans ?_
    simp [alphaOf, betaOf, gammaOf, complement4_eq]
  case gC | gNC | gNK =>
    refine (congrArg Host.Outcome.next (State.orGamma_eq s _)).trans ?_
    simp [alphaOf, betaOf, gammaOf, complement1_eq]
  all_goals exact absurd h (by decide)

/-- The sources of a microinstruction, run one after another, OR in the terms of the closed form. -/
theorem runOps_sources_terms {ops : Micro} (h : ∀ i ∈ ops, isSource i = true) (s : State) :
    runOps ops s = .next (s.withBus (s.bus.joined (alphaOf ops s.chip) (betaOf ops s.chip)
      (gammaOf ops s.chip s.bus.ke))) := by
  induction ops generalizing s with
  | nil => simp [runOps, alphaOf, betaOf, gammaOf, Bus.joined, State.withBus]
  | cons i ops ih =>
    obtain ⟨hi, hops⟩ := List.forall_mem_cons.1 h
    rw [runOps_cons (exec_source_terms hi s), ih hops, alphaOf_cons i ops, betaOf_cons i ops,
      gammaOf_cons i ops, ← Bus.joined_joined]
    rfl

theorem alphaOf_filter (ops : Micro) (c : Chip) : alphaOf (ops.filter isSource) c = alphaOf ops c := by
  simp [alphaOf, isSource]

theorem betaOf_filter (ops : Micro) (c : Chip) : betaOf (ops.filter isSource) c = betaOf ops c := by
  simp [betaOf, isSource]

theorem gammaOf_filter (ops : Micro) (c : Chip) (ke : Bit) :
    gammaOf (ops.filter isSource) c ke = gammaOf ops c ke := by
  simp [gammaOf, isSource]

/-- The terms that the adder gets are those of the closed form, from 0 (R145-R147). -/
theorem runOps_beginTick (ops : Micro) (key : Byte) (mode : AngularMode) (s : State) :
    runOps (ops.filter isSource) (beginTick key mode s) =
      .next ((beginTick key mode s).withBus ((beginTick key mode s).bus.joined (alphaOf ops s.chip)
        (betaOf ops s.chip) (gammaOf ops s.chip (keyEvent s.cfg key s.chip)))) := by
  rw [runOps_sources_terms fun i hi => (List.mem_filter.1 hi).2, alphaOf_filter, betaOf_filter, gammaOf_filter]
  rfl

/-- t of the terms is t of the closed form (R148). -/
theorem total_joined_beginTick (ops : Micro) (key : Byte) (mode : AngularMode) (s : State) :
    ((beginTick key mode s).bus.joined (alphaOf ops s.chip) (betaOf ops s.chip)
      (gammaOf ops s.chip (keyEvent s.cfg key s.chip))).total =
      totalOf ops s.chip (keyEvent s.cfg key s.chip) := by
  simp [Bus.total, Bus.joined, totalOf]

/-! The stages of a tick -/

/-- What a tick answers from its decoded microinstruction on: the terms, then AluRange's record, or the adder's values,
the write-back and the end (R110). -/
theorem runMicro_eq_next_iff {f : Fetched} {key : Byte} {mode : AngularMode} {s t : State} :
    runMicro f key mode s = .next t ↔
      ∃ s1, runOps (f.ops.filter isSource) (beginTick key mode s) = .next s1 ∧
        ((∃ flt, addStage f.ops s1 = .error flt ∧ t = s.takeFault flt) ∨
          ∃ s2 s3, addStage f.ops s1 = .ok s2 ∧ runOps (f.ops.filter fun i => !isSource i) s2 = .next s3 ∧
            t = finishTick s.chip f s3) := by
  constructor
  · intro h
    unfold runMicro at h
    split at h
    · next s1 h1 =>
      refine ⟨s1, h1, ?_⟩
      split at h
      · next flt h2 =>
        cases h
        exact .inl ⟨flt, h2, rfl⟩
      · next s2 h2 =>
        split at h
        · next s3 h3 =>
          cases h
          exact .inr ⟨s2, s3, h2, h3, rfl⟩
        · cases h
        · cases h
    · cases h
    · cases h
  · rintro ⟨s1, h1, ⟨flt, h2, rfl⟩ | ⟨s2, s3, h2, h3, rfl⟩⟩
    · simp only [runMicro, h1, h2]
    · simp only [runMicro, h1, h2, h3]

/-! What the write-back of a tick can write (R116, R179) -/

/-- The banks agree but for R[i], R[i-1], R[i-2], M[i] and ST[i..i+2], under one window offset. -/
structure Chip.AgreeOffWindow (c d : Chip) : Prop where
  i : d.i = c.i
  r : ∀ j, j ≠ c.i → j ≠ c.i - 1 → j ≠ c.i - 2 → d.r.get j = c.r.get j
  m : ∀ j, j ≠ c.i → d.m.get j = c.m.get j
  st : ∀ j, j ≠ c.i → j ≠ c.i + 1 → j ≠ c.i + 2 → d.st.get j = c.st.get j

namespace Chip.AgreeOffWindow

theorem of_banks_eq {c d : Chip} (hi : d.i = c.i) (hr : d.r = c.r) (hm : d.m = c.m) (hst : d.st = c.st) :
    c.AgreeOffWindow d :=
  ⟨hi, fun _ _ _ _ => by rw [hr], fun _ _ => by rw [hm], fun _ _ _ _ => by rw [hst]⟩

theorem trans {c d e : Chip} (h : c.AgreeOffWindow d) (h' : d.AgreeOffWindow e) : c.AgreeOffWindow e := by
  obtain ⟨hi, hr, hm, hst⟩ := h
  obtain ⟨hi', hr', hm', hst'⟩ := h'
  rw [hi] at hi' hr' hm' hst'
  exact ⟨hi', fun j h0 h1 h2 => (hr' j h0 h1 h2).trans (hr j h0 h1 h2), fun j h0 => (hm' j h0).trans (hm j h0),
    fun j h0 h1 h2 => (hst' j h0 h1 h2).trans (hst j h0 h1 h2)⟩

theorem writeR (c : Chip) {k : Fin 42} (hk : k = c.i ∨ k = c.i - 1 ∨ k = c.i - 2) (v : Nibble) :
    c.AgreeOffWindow (c.writeR k v) where
  i := rfl
  r j h0 h1 h2 := by
    rw [Chip.writeR_get, if_neg]
    rintro rfl
    exact hk.elim h0 fun hk => hk.elim h1 h2
  m _ _ := rfl
  st _ _ _ _ := rfl

theorem writeM (c : Chip) (v : Nibble) : c.AgreeOffWindow (c.writeM c.i v) where
  i := rfl
  r _ _ _ _ := rfl
  m j h0 := by rw [Chip.writeM_get, if_neg h0]
  st _ _ _ _ := rfl

theorem writeTriple (c : Chip) (x y z : Nibble) : c.AgreeOffWindow (c.writeTriple x y z) where
  i := rfl
  r _ _ _ _ := rfl
  m _ _ := rfl
  st := (c.writeTriple_words x y z).2.2.2

end Chip.AgreeOffWindow

/-- A micro-operation writes no bank word outside the window's. -/
theorem exec_agreeOffWindow {i : Instr} {s t : State} (h : exec i s = .next t) :
    s.chip.AgreeOffWindow t.chip := by
  cases i <;> cases h
  case rwR3 | rwSum | rwS | rwRSSum | rwSSum | rwRS | rwRSum => exact .writeR _ (.inl rfl) _
  case r1Sum => exact .writeR _ (.inr (.inl rfl)) _
  case r2Sum => exact .writeR _ (.inr (.inr rfl)) _
  case mwS => exact .writeM _ _
  case stShift | stRot => exact .writeTriple _ _ _ _
  all_goals exact .of_banks_eq rfl rfl rfl rfl

theorem runOps_agreeOffWindow {ops : Micro} {s t : State} (h : runOps ops s = .next t) :
    s.chip.AgreeOffWindow t.chip := by
  induction ops generalizing s with
  | nil =>
    cases h
    exact .of_banks_eq rfl rfl rfl rfl
  | cons i ops ih =>
    obtain ⟨u, hu⟩ := exec_next i s
    rw [runOps_cons hu] at h
    exact (exec_agreeOffWindow hu).trans (ih h)

/-! What a tick answers -/

/-- The state when the write-back is done: values of the tick on the bus, and new values in the registers that a
write-back can write. -/
def State.afterWrites (s : State) (b : Bus) (d : Chip) : State := (s.withBus b).withChip (s.chip.rewritten d)

/-- A tick is stuck in a recorded fault, takes a fault, or runs to its end, where its write-back has rewritten
registers in the window and the values of the tick are gone. -/
inductive TickAnswers (s t : State) : Prop
  | stuck (r : FaultRecord) (hfault : s.chip.fault = some r) (ht : t = s.withOut (.ticked [] (.faulted r)))
  | takes (flt : Fault) (hnone : s.chip.fault = none) (ht : t = s.takeFault flt)
  | ends (f : Fetched) (b : Bus) (d : Chip) (hnone : s.chip.fault = none) (hfetch : fetch s = .ok f)
      (hwindow : s.chip.AgreeOffWindow (s.chip.rewritten d)) (ht : t = finishTick s.chip f (s.afterWrites b d))

/-- A tick whose microinstruction is decoded takes AluRange or runs to its end. -/
theorem runMicro_answers {key : Byte} {mode : AngularMode} {s t : State} {f : Fetched}
    (hnone : s.chip.fault = none) (hfetch : fetch s = .ok f) (h : runMicro f key mode s = .next t) :
    TickAnswers s t := by
  obtain ⟨x, y, z, -, ⟨-, -, -, e⟩ | ⟨sum, cout, d, -, hwrites, e⟩⟩ := runMicro_cases f key mode s <;>
    cases h.symm.trans e
  · exact .takes _ hnone rfl
  · exact .ends f _ d hnone hfetch (runOps_agreeOffWindow hwrites) rfl

theorem calcStep_answers {key : Byte} {mode : AngularMode} {s t : State} (h : calcStep key mode s = .next t) :
    TickAnswers s t := by
  rcases calcStep_cases key mode s with ⟨r, hr, e⟩ | ⟨hnone, flt, -, e⟩ | ⟨hnone, f, hf, e⟩
  · cases h.symm.trans e
    exact .stuck r hr rfl
  · cases h.symm.trans e
    exact .takes flt hnone rfl
  · exact runMicro_answers hnone hf (e.symm.trans h)

theorem step_tick {s : State} {key : Byte} {mode : AngularMode} {rest : List HostOp}
    (h : s.pending = .tick key mode :: rest) : step s = calcStep key mode (s.withPending rest) := by
  simp only [step, h, hostStep]

/-- What a step answers whose oldest host operation is a calc_step. -/
theorem step_tick_answers {s t : State} {key : Byte} {mode : AngularMode} {rest : List HostOp}
    (hp : s.pending = .tick key mode :: rest) (h : step s = .next t) :
    TickAnswers (s.withPending rest) t :=
  calcStep_answers ((step_tick hp).symm.trans h)

/-- A tick keeps the configuration, the program store and the host operations to come, whatever it answers. -/
theorem TickAnswers.keeps {s t : State} (h : TickAnswers s t) :
    t.cfg = s.cfg ∧ t.prog = s.prog ∧ t.pending = s.pending := by
  cases h with
  | stuck _ _ ht => subst ht; exact ⟨rfl, rfl, rfl⟩
  | takes _ _ ht => subst ht; exact ⟨rfl, rfl, rfl⟩
  | ends _ _ _ _ _ _ ht => subst ht; exact ⟨rfl, rfl, rfl⟩

/-- A tick in the adder's range runs to its end (R149-R151). -/
theorem step_of_inRange {s : State} {key : Byte} {mode : AngularMode} {rest : List HostOp} {f : Fetched}
    (hf : Fetching s key mode rest f) (hrange : InRange s key f) :
    ∃ b d, b.ke = keyEvent s.cfg key s.chip ∧
      step s = .next (finishTick s.chip f ((s.withPending rest).afterWrites b d)) := by
  obtain ⟨hp, hnone, hfetch⟩ := hf
  have hstep : step s = runMicro f key mode (s.withPending rest) := by
    rw [step_tick hp]
    simp only [calcStep, State.withPending_chip, hnone, fetch_withPending, hfetch]
  obtain ⟨x, y, z, hterms, ⟨hdec, hused, ht, -⟩ | ⟨sum, cout, d, -, -, e⟩⟩ :=
    runMicro_cases f key mode (s.withPending rest)
  · have htotal : ((beginTick key mode (s.withPending rest)).bus.joined x y z).total = tickTotal s key f := by
      rw [runOps_beginTick] at hterms
      have hbus := congrArg State.bus (Host.Outcome.next.inj hterms)
      exact (congrArg Bus.total hbus).symm.trans (total_joined_beginTick f.ops key mode (s.withPending rest))
    rcases hrange with h | h | h
    · omega
    · exact nomatch hdec.symm.trans h
    · exact nomatch hused.symm.trans h
  · exact ⟨_, d, rfl, hstep.trans e⟩

/-! The end of a tick -/

/-- The latches hold what was fetched and the tick's keypad_event (R110, R119). -/
theorem finishTick_latches (start : Chip) (f : Fetched) (s : State) :
    (finishTick start f s).chip.ak = f.ak ∧ (finishTick start f s).chip.aki = f.aki ∧
      (finishTick start f s).chip.u = f.u ∧ (finishTick start f s).chip.ua = f.ua ∧
      (finishTick start f s).chip.keypadEvent = s.bus.ke :=
  ⟨rfl, rfl, rfl, rfl, rfl⟩

/-- The FIFO exchange leaves the display's registers. -/
theorem fifoExchange_display (link : FifoLink) (c : Chip) :
    (fifoExchange link c).dot = c.dot ∧ (fifoExchange link c).showDot = c.showDot ∧
      (fifoExchange link c).slot = c.slot := by
  rw [fifoExchange_eq]
  exact ⟨rfl, rfl, rfl⟩

/-- The end of a tick at i = 41: one event, its dot in dot and show_dot[slot], the next slot (R201). -/
theorem finishTick_display_at_end {start : Chip} (hi : start.i = 41) (f : Fetched) (s : State) :
    eventsIn (finishTick start f s).out = [displayEvent s.cfg start f.ak] ∧
      (finishTick start f s).chip.dot = (displayEvent s.cfg start f.ak).dot ∧
      (∀ k, (finishTick start f s).chip.showDot.get k =
        if k = start.slot then (displayEvent s.cfg start f.ak).dot else s.chip.showDot.get k) ∧
      (finishTick start f s).chip.slot = start.slot + 1 := by
  obtain ⟨-, hshow, -⟩ := fifoExchange_display s.cfg.fifoLink s.chip
  rw [finishTick_out, finishTick_chip]
  rcases display_cases s.cfg start f.ak (fifoExchange s.cfg.fifoLink s.chip) with ⟨-, e⟩ | ⟨hne, -⟩
  · rw [e]
    refine ⟨rfl, rfl, fun k => ?_, rfl⟩
    rw [← hshow]
    exact bank_get_set _ _ _ _
  · exact absurd hi hne

/-- The end of a tick at any other i leaves the display (R201). -/
theorem finishTick_display_before_end {start : Chip} (hi : start.i ≠ 41) (f : Fetched) (s : State) :
    eventsIn (finishTick start f s).out = [] ∧ (finishTick start f s).chip.dot = s.chip.dot ∧
      (finishTick start f s).chip.showDot = s.chip.showDot ∧ (finishTick start f s).chip.slot = s.chip.slot := by
  rw [finishTick_out, finishTick_chip]
  rcases display_cases s.cfg start f.ak (fifoExchange s.cfg.fifoLink s.chip) with ⟨h, -⟩ | ⟨-, e⟩
  · exact absurd h hi
  · rw [e]
    exact ⟨rfl, fifoExchange_display _ _⟩

/-- Only show_dot of the slot can change in a tick (R201). -/
theorem finishTick_showDot_of_ne {start : Chip} (f : Fetched) (s : State) {k : Fin 14} (hk : k ≠ start.slot) :
    (finishTick start f s).chip.showDot.get k = s.chip.showDot.get k := by
  by_cases hi : start.i = 41
  · obtain ⟨-, -, hshow, -⟩ := finishTick_display_at_end hi f s
    rw [hshow, if_neg hk]
  · obtain ⟨-, -, hshow, -⟩ := finishTick_display_before_end hi f s
    rw [hshow]

/-! Other program stores, other values of a tick -/

/-- Outside i = 0 the fetch stages read no program byte (R111). -/
theorem fetch_withProg {s : State} (hi : s.chip.i ≠ 0) (m : Memory) : fetch (s.withProg m) = fetch s := by
  have hmacro : fetchMacro (s.withProg m) = fetchMacro s :=
    (fetchMacro_of_ne_zero (s := s.withProg m) hi).trans (fetchMacro_of_ne_zero hi).symm
  unfold fetch
  rw [hmacro]
  rfl

/-- A micro-operation does not see the program store. -/
theorem exec_withProg {i : Instr} {s t : State} (h : exec i s = .next t) (m : Memory) :
    exec i (s.withProg m) = .next (t.withProg m) := by
  cases i <;> cases h <;> rfl

theorem runOps_withProg {ops : Micro} {s t : State} (h : runOps ops s = .next t) (m : Memory) :
    runOps ops (s.withProg m) = .next (t.withProg m) := by
  induction ops generalizing s with
  | nil =>
    cases h
    rfl
  | cons i ops ih =>
    obtain ⟨u, hu⟩ := exec_next i s
    rw [runOps_cons hu] at h
    rw [runOps_cons (exec_withProg hu m)]
    exact ih h

theorem addStage_withProg_ok {ops : Micro} {s t : State} (h : addStage ops s = .ok t) (m : Memory) :
    addStage ops (s.withProg m) = .ok (t.withProg m) := by
  unfold addStage at h ⊢
  simp only [State.withProg_cfg, State.withProg_bus]
  split at h
  · cases h
  · cases h
    rfl

theorem addStage_withProg_error {ops : Micro} {s : State} {flt : Fault} (h : addStage ops s = .error flt)
    (m : Memory) : addStage ops (s.withProg m) = .error flt := by
  unfold addStage at h ⊢
  simp only [State.withProg_cfg, State.withProg_bus]
  split at h
  · exact h
  · cases h

theorem runMicro_withProg {f : Fetched} {key : Byte} {mode : AngularMode} {s t : State}
    (h : runMicro f key mode s = .next t) (m : Memory) :
    runMicro f key mode (s.withProg m) = .next (t.withProg m) := by
  rw [runMicro_eq_next_iff] at h ⊢
  obtain ⟨s1, h1, ⟨flt, h2, rfl⟩ | ⟨s2, s3, h2, h3, rfl⟩⟩ := h
  · exact ⟨s1.withProg m, runOps_withProg h1 m, .inl ⟨flt, addStage_withProg_error h2 m, rfl⟩⟩
  · exact ⟨s1.withProg m, runOps_withProg h1 m,
      .inr ⟨s2.withProg m, s3.withProg m, addStage_withProg_ok h2 m, runOps_withProg h3 m, rfl⟩⟩

/-- Outside i = 0 a tick answers the same under every program store: fetch reads it at i = 0 only, and no later stage
reads it. -/
theorem calcStep_withProg {s t : State} {key : Byte} {mode : AngularMode} (hi : s.chip.i ≠ 0)
    (h : calcStep key mode s = .next t) (m : Memory) :
    calcStep key mode (s.withProg m) = .next (t.withProg m) := by
  unfold calcStep at h ⊢
  rw [fetch_withProg hi, State.withProg_chip]
  split at h
  · cases h
    rfl
  · split at h
    · cases h
      rfl
    · exact runMicro_withProg h m

/-- A tick from an unfaulted state sets the values of the tick anew (R41). -/
theorem calcStep_withBus {s : State} (hnone : s.chip.fault = none) (key : Byte) (mode : AngularMode) (b : Bus) :
    calcStep key mode (s.withBus b) = calcStep key mode s := by
  simp only [calcStep, State.withBus_chip, hnone]
  rfl

/-! The host's other operations -/

theorem hostInit_cfg (prog : Option (List Byte)) (s : State) : (hostInit prog s).cfg = s.cfg := by
  cases prog with
  | none => rfl
  | some p =>
    simp only [hostInit]
    split <;> rfl

theorem hostLoad_cfg (p : List Byte) (s : State) : (hostLoad p s).cfg = s.cfg := by
  unfold hostLoad
  split <;> rfl

end Sys2Proof.Machine

/-! PROOFS. The state of the CORE: what a tick latches, what it can write at all, what it reads, and the state after
reset. -/

namespace Sys2Proof.Safety

open Sys2Proof.Machine

/-- Settles O23: a tick in the adder's range runs to its end, and the end latches. -/
theorem tickCompletes : Obligations.TickCompletes := by
  intro s key mode rest f hf hrange
  refine ⟨fetches_of_fetch_ok hf.fetched, ?_⟩
  obtain ⟨b, d, hke, hstep⟩ := step_of_inRange hf hrange
  obtain ⟨-, -, -, -, -, hfault, hi⟩ := finishTick_registers s.chip f ((s.withPending rest).afterWrites b d)
  obtain ⟨hak, haki, hu, hua, hkeypad⟩ := finishTick_latches s.chip f ((s.withPending rest).afterWrites b d)
  refine ⟨_, hstep, hfault.trans hf.noFault, rfl, ?_, hak, haki, hu, hua, hkeypad.trans hke, _,
    finishTick_out _ _ _⟩
  rw [hi]
  exact Fin.val_add _ _

/-- Settles O29: a tick that faults writes no bank at all, and one that runs to its end writes in the window, with the
FIFO exchange at M[i] and the addressed cell and the display at the slot. -/
theorem tickFrame : Obligations.TickFrame := by
  intro s t key mode rest hp h
  have hanswer := step_tick_answers hp h
  obtain ⟨hcfg, hprog, hpending⟩ := hanswer.keeps
  have hsame : SameProgram s t := fun a => by rw [hcfg, hprog]; rfl
  cases hanswer with
  | stuck r _ ht =>
    subst ht
    exact ⟨fun _ _ _ _ => rfl, fun _ _ => rfl, fun _ _ _ _ => rfl, fun _ _ => rfl, fun _ _ => rfl,
      hpending, hcfg, hprog, hsame⟩
  | takes flt _ ht =>
    subst ht
    exact ⟨fun _ _ _ _ => rfl, fun _ _ => rfl, fun _ _ _ _ => rfl, fun _ _ => rfl, fun _ _ => rfl,
      hpending, hcfg, hprog, hsame⟩
  | ends f b d _ _ hwindow ht =>
    obtain ⟨hr, hst, -⟩ := finishTick_registers s.chip f ((s.withPending rest).afterWrites b d)
    obtain ⟨hm, hfifo, -⟩ := finishTick_fifo s.chip f ((s.withPending rest).afterWrites b d)
    subst ht
    refine ⟨fun j h0 h1 h2 => ?_, fun j h0 => ?_, fun j h0 h1 h2 => ?_, fun k hk => ?_, fun k hk => ?_,
      hpending, hcfg, hprog, hsame⟩
    · exact (congrArg (·.get j) hr).trans (hwindow.r j h0 h1 h2)
    · exact ((hm j).trans (if_neg h0)).trans (hwindow.m j h0)
    · exact (congrArg (·.get j) hst).trans (hwindow.st j h0 h1 h2)
    · exact (hfifo k).trans (if_neg hk)
    · exact finishTick_showDot_of_ne f _ hk

/-- Settles O36: a tick that faults leaves the latches, and one that runs to its end latches what it fetched. -/
theorem macroLatchHeldInPeriod : Obligations.MacroLatchHeldInPeriod := by
  intro s t key mode rest hp h
  cases step_tick_answers hp h with
  | stuck r hfault ht =>
    subst ht
    exact ⟨fun _ => ⟨rfl, rfl⟩, fun hnone => nomatch hfault.symm.trans hnone⟩
  | takes flt _ ht =>
    subst ht
    exact ⟨fun _ => ⟨rfl, rfl⟩, nofun⟩
  | ends f b d _ hfetch _ ht =>
    obtain ⟨hnew, hheld, hua, hword, hops⟩ := fetches_of_fetch_ok hfetch
    subst ht
    exact ⟨hheld, fun _ => ⟨hnew, hua, hword, f.ops, hops⟩⟩

/-- Settles O42: the display stage of a tick that runs to its end. -/
theorem displayAtEndOfPeriod : Obligations.DisplayAtEndOfPeriod := by
  intro s key mode rest f hf hrange
  obtain ⟨b, d, -, hstep⟩ := step_of_inRange hf hrange
  obtain ⟨-, -, -, -, -, hfault, -⟩ := finishTick_registers s.chip f ((s.withPending rest).afterWrites b d)
  refine ⟨_, hstep, hfault.trans hf.noFault, fun hi => ?_, fun hi => finishTick_display_before_end hi f _⟩
  obtain ⟨hevents, hdot, hshow, hslot⟩ := finishTick_display_at_end hi f ((s.withPending rest).afterWrites b d)
  refine ⟨hevents, hdot, (hshow _).trans (if_pos rfl), fun k hk => (hshow k).trans (if_neg hk), ?_⟩
  rw [hslot]
  exact Fin.val_add _ _

/-- Settles O47: the step is a tick, and outside i = 0 a tick answers the same under every program store. -/
theorem programStoreReadOnlyAtZero : Obligations.ProgramStoreReadOnlyAtZero := by
  intro s t m key mode rest hp hi h
  rw [step_tick hp] at h
  exact (step_tick (s := s.withProg m) hp).trans (calcStep_withProg (s := s.withPending rest) hi h m)

/-- Settles O53: by the host operation of the step. -/
theorem stepKeepsConfiguration : Obligations.StepKeepsConfiguration := by
  intro s t h
  rcases step_cases s with ⟨-, e⟩ | ⟨op, rest, hp, e⟩ <;> rw [h] at e
  · cases e
    exact ⟨rfl, fun _ _ => rfl⟩
  cases op with
  | init prog =>
    refine ⟨?_, fun hinit => absurd hp (hinit prog rest)⟩
    cases e
    exact hostInit_cfg prog _
  | load p =>
    refine ⟨?_, fun _ hload => absurd hp (hload p rest)⟩
    cases e
    exact hostLoad_cfg p _
  | dump =>
    cases e
    exact ⟨rfl, fun _ _ => rfl⟩
  | tick key mode =>
    obtain ⟨hcfg, hprog, -⟩ := (calcStep_answers e.symm).keeps
    exact ⟨hcfg, fun _ _ => hprog⟩

/-- Settles O56: the tick begins with values of its own and ends with idle ones. -/
theorem busCarriesNothing : Obligations.BusCarriesNothing := by
  intro s t key mode rest b hp hnone h
  constructor
  · rw [step_tick hp] at h
    rw [step_tick (s := s.withBus b) hp]
    exact (calcStep_withBus (s := s.withPending rest) hnone key mode b).trans h
  · cases step_tick_answers hp h with
    | stuck r hfault _ => exact nomatch hfault.symm.trans hnone
    | takes flt _ ht => subst ht; rfl
    | ends f b d _ _ _ ht => subst ht; rfl

/-- A bank of zeros reads 0 at every index. -/
theorem get_replicate_zero {n w : Nat} (j : Fin n) : (Vector.replicate n (0 : BitVec w)).get j = 0 := by
  rw [Vector.get_eq_getElem, Vector.getElem_replicate]

theorem isReset_reset : IsReset Chip.reset :=
  ⟨fun j => ⟨get_replicate_zero j, get_replicate_zero j, get_replicate_zero j⟩, rfl, rfl, rfl, rfl, rfl, rfl, rfl,
    rfl, rfl, rfl, get_replicate_zero, rfl, rfl, get_replicate_zero, rfl, rfl, rfl⟩

/-- Settles O52: calc_init's values, and PROG_INIT as the store. -/
theorem resetClearsCore : Obligations.ResetClearsCore := ⟨isReset_reset, fun _ => rfl⟩

end Sys2Proof.Safety

/-! PROOFS. What MemRead answers, what the host's load, dump and calc_init leave, and which fetch stage a tick's fault
comes from: facts that the proofs of the memory family use. -/

namespace Sys2Proof.Machine

open Sys2Proof.Safety

/-! The program store through MemRead (R65) -/

theorem memRead_of_lt {n a : Nat} (h : a < n) (m : Memory) : memRead n m a = .ok (Memory.read m a) := if_pos h

theorem memRead_of_le {n a : Nat} (h : n ≤ a) (m : Memory) : memRead n m a = .error (.progAddr a) :=
  if_neg (Nat.not_lt.2 h)

/-- An array written from address 0 on reads back byte by byte. -/
theorem Memory.read_writeFrom_zero {m : Memory} (h : Memory.wf m) (p : List Byte) (a : Nat) (ha : a < p.length) :
    Memory.read (Memory.writeFrom m 0 p) a = p[a] := by
  simp [Memory.read_writeFrom p h, ha]

/-- After an array of PROG_LEN bytes is written, MemRead answers its bytes (R62, R65). -/
theorem memRead_writeFrom_zero {m : Memory} (h : Memory.wf m) {p : List Byte} {n : Nat} (hlen : p.length = n) (a : Nat)
    (ha : a < p.length) : memRead n (Memory.writeFrom m 0 p) a = .ok p[a] := by
  rw [memRead_of_lt (hlen ▸ ha), Memory.read_writeFrom_zero h p a ha]

theorem Memory.length_bytes (m : Memory) (n : Nat) : (Memory.bytes m n).length = n := by simp [Memory.bytes]

/-- The bytes in index order are what MemRead answers at their addresses (R63, R65). -/
theorem memRead_eq_bytes (m : Memory) (n a : Nat) (ha : a < (Memory.bytes m n).length) :
    memRead n m a = .ok (Memory.bytes m n)[a] := by
  rw [memRead_of_lt (Memory.length_bytes m n ▸ ha)]
  simp [Memory.bytes]

/-- The bytes in index order after an array of that many bytes is written are the array. -/
theorem Memory.bytes_writeFrom {m : Memory} (h : Memory.wf m) {p : List Byte} {n : Nat} (hlen : p.length = n) :
    Memory.bytes (Memory.writeFrom m 0 p) n = p := by
  refine List.ext_getElem ((Memory.length_bytes _ n).trans hlen.symm) fun a ha ha' => ?_
  exact Except.ok.inj ((memRead_eq_bytes _ n a ha).symm.trans (memRead_writeFrom_zero h hlen a ha'))

/-! The host's operations other than the tick (R62, R63, R250) -/

theorem step_init {s : State} {prog : Option (List Byte)} {rest : List HostOp} (h : s.pending = .init prog :: rest) :
    step s = .next (hostInit prog (s.withPending rest)) := by
  simp only [step, h, hostStep]

theorem step_load {s : State} {p : List Byte} {rest : List HostOp} (h : s.pending = .load p :: rest) :
    step s = .next (hostLoad p (s.withPending rest)) := by
  simp only [step, h, hostStep]

theorem step_dump {s : State} {rest : List HostOp} (h : s.pending = .dump :: rest) :
    step s = .next (hostDump (s.withPending rest)) := by
  simp only [step, h, hostStep]

theorem hostLoad_of_length {p : List Byte} {s : State} (h : p.length = s.cfg.progLen) :
    hostLoad p s = (s.withProg (Memory.writeFrom s.prog 0 p)).withOut .loaded := if_pos h

theorem hostLoad_of_length_ne {p : List Byte} {s : State} (h : p.length ≠ s.cfg.progLen) :
    hostLoad p s = s.withOut .loadRefused := if_neg h

/-- A load, answered or refused, leaves everything but the program store and the answer. -/
theorem hostLoad_frame (p : List Byte) (s : State) :
    (hostLoad p s).chip = s.chip ∧ (hostLoad p s).bus = s.bus ∧ (hostLoad p s).pending = s.pending := by
  unfold hostLoad
  split <;> exact ⟨rfl, rfl, rfl⟩

theorem hostInit_of_length {p : List Byte} {s : State} (h : p.length = s.cfg.progLen) :
    hostInit (some p) s = s.initialised (Memory.ofBytes p) := if_pos h

theorem hostInit_of_length_ne {p : List Byte} {s : State} (h : p.length ≠ s.cfg.progLen) :
    hostInit (some p) s = s.withOut .initRefused := if_neg h

theorem hostInit_pending (prog : Option (List Byte)) (s : State) : (hostInit prog s).pending = s.pending := by
  cases prog with
  | none => rfl
  | some p =>
    simp only [hostInit]
    split <;> rfl

/-- In a faulted state every host operation but calc_init leaves the CORE as it is (R114, R223). -/
theorem hostStep_keeps_faulted_chip {op : HostOp} {s t : State} {r : FaultRecord} (hfault : s.chip.fault = some r)
    (hop : ∀ prog, op ≠ .init prog) (h : hostStep op s = .next t) : t.chip = s.chip := by
  cases op with
  | init prog => exact absurd rfl (hop prog)
  | tick key mode =>
    cases calcStep_answers h with
    | stuck _ _ ht => subst ht; rfl
    | takes _ hnone _ => exact nomatch hfault.symm.trans hnone
    | ends _ _ _ hnone _ _ _ => exact nomatch hfault.symm.trans hnone
  | load p =>
    cases h
    exact (hostLoad_frame p s).1
  | dump =>
    cases h
    rfl

/-! The faults of the fetch stages, in the stages' order (R224) -/

/-- A fault of MACRO_SELECT's reads is the fault of FetchMacro (R111). -/
theorem fetchMacro_of_run_error {s : State} (hi : s.chip.i = 0) {flt : Fault}
    (h : Select.run (memRead s.cfg.progLen s.prog) (macroSelect s.cfg s.chip) = .error flt) :
    fetchMacro s = .error flt := by
  simp only [fetchMacro, if_pos hi, h]

/-- An answered index that the command table does not have is MacroAddr (R52, R111). -/
theorem fetchMacro_of_run_ok {s : State} (hi : s.chip.i = 0) {aki : Nat}
    (h : Select.run (memRead s.cfg.progLen s.prog) (macroSelect s.cfg s.chip) = .ok aki)
    (hlen : s.cfg.cmdRom.length ≤ aki) : fetchMacro s = .error (.macroAddr aki) := by
  simp only [fetchMacro, if_pos hi, h, List.getElem?_eq_none hlen]

/-- FetchMacro raises ProgAddr exactly at i = 0, with MACRO_SELECT's first read out of range (R65, R224). -/
theorem fetchMacro_eq_progAddr_iff {s : State} {a : Nat} :
    fetchMacro s = .error (.progAddr a) ↔
      s.chip.i = 0 ∧ firstOutOfRange s.cfg.progLen s.prog (macroSelect s.cfg s.chip) = some a := by
  constructor
  · intro h
    unfold fetchMacro at h
    split at h
    · next hi =>
      split at h
      · next hrun =>
        cases h
        obtain ⟨b, hb, hab⟩ := Select.run_error_iff.1 hrun
        cases hab
        exact ⟨hi, hb⟩
      · split at h <;> cases h
    · cases h
  · rintro ⟨hi, ha⟩
    exact fetchMacro_of_run_error hi (Select.run_error_iff.2 ⟨a, ha, rfl⟩)

/-- An index that the microinstruction table does not have is MicroAddr (R52, R112). -/
theorem fetchMicro_of_length_le {s : State} {ak : Nat} (h : s.cfg.urom.length ≤ microSelect s.cfg ak s.chip) :
    fetchMicro s ak = .error (.microAddr (microSelect s.cfg ak s.chip)) := by
  simp only [fetchMicro, List.getElem?_eq_none h]

theorem fetch_of_fetchMacro_error {s : State} {flt : Fault} (h : fetchMacro s = .error flt) :
    fetch s = .error flt := by
  simp only [fetch, h]

theorem fetch_of_fetchMicro_error {s : State} {aki ak : Nat} {flt : Fault} (hmacro : fetchMacro s = .ok (aki, ak))
    (h : fetchMicro s ak = .error flt) : fetch s = .error flt := by
  simp only [fetch, hmacro, h]

/-- The later stages raise no ProgAddr: it is FetchMacro's alone (R65). -/
theorem fetch_eq_progAddr_iff {s : State} {a : Nat} :
    fetch s = .error (.progAddr a) ↔ fetchMacro s = .error (.progAddr a) := by
  refine ⟨fun h => ?_, fetch_of_fetchMacro_error⟩
  unfold fetch at h
  split at h
  · next hmacro =>
    cases h
    exact hmacro
  · split at h
    · next hmicro =>
      unfold fetchMicro at hmicro
      split at hmicro <;> cases hmicro
      cases h
    · split at h
      · next hdecode =>
        unfold decodeStage at hdecode
        split at hdecode <;> cases hdecode
        cases h
      · cases h

/-- The end of a tick takes no fault. -/
theorem finishTick_fault (start : Chip) (f : Fetched) (s : State) :
    (finishTick start f s).chip.fault = s.chip.fault := by
  obtain ⟨-, -, -, -, -, hfault, -⟩ := finishTick_registers start f s
  exact hfault

/-- A fault of the fetch stages is taken by the tick (R222). -/
theorem step_of_fetch_error {s : State} {key : Byte} {mode : AngularMode} {rest : List HostOp}
    (hp : s.pending = .tick key mode :: rest) (hnone : s.chip.fault = none) {flt : Fault}
    (h : fetch s = .error flt) : step s = .next ((s.withPending rest).takeFault flt) := by
  rw [step_tick hp]
  simp only [calcStep, State.withPending_chip, hnone, fetch_withPending, h]

/-- A tick from an unfaulted state records a cause other than AluRange exactly when the fetch stages raise it: of the
stages after them only the adder faults (R149, R221). -/
theorem step_records_iff {s : State} {key : Byte} {mode : AngularMode} {rest : List HostOp}
    (hp : s.pending = .tick key mode :: rest) (hnone : s.chip.fault = none) {flt : Fault}
    (halu : ∀ t, flt ≠ .aluRange t) :
    (∃ t, step s = .next t ∧ t.chip.fault = some ⟨flt, s.chip.i, s.chip.slot⟩) ↔ fetch s = .error flt := by
  constructor
  · rintro ⟨t, hstep, hrecord⟩
    rw [step_tick hp] at hstep
    rcases calcStep_cases key mode (s.withPending rest) with ⟨r, hr, -⟩ | ⟨-, flt', hfetch, e⟩ | ⟨-, f, -, e⟩
    · exact nomatch hnone.symm.trans hr
    · cases hstep.symm.trans e
      cases hrecord
      exact hfetch
    · obtain ⟨x, y, z, -, ⟨-, -, -, e'⟩ | ⟨sum, cout, d, -, -, e'⟩⟩ := runMicro_cases f key mode (s.withPending rest)
      · cases hstep.symm.trans (e.trans e')
        cases hrecord
        exact absurd rfl (halu _)
      · cases hstep.symm.trans (e.trans e')
        rw [finishTick_fault] at hrecord
        exact nomatch hnone.symm.trans hrecord
  · intro h
    exact ⟨_, step_of_fetch_error hp hnone h, rfl⟩

end Sys2Proof.Machine

/-! PROOFS. The program store: the addressing faults of a tick, and the host's load, dump and calc_init. -/

namespace Sys2Proof.Safety

open Sys2Proof.Machine

/-- Settles O33: a tick records what its fetch stages raise, and each of the three causes has its stage. -/
theorem addressingFaults : Obligations.AddressingFaults := by
  intro s key mode rest hp hnone
  refine ⟨fun a => ?_, fun aki hi hrun hlen => ?_, fun aki ak hmacro hlen => ?_⟩
  · exact (step_records_iff hp hnone (by nofun)).trans (fetch_eq_progAddr_iff.trans fetchMacro_eq_progAddr_iff)
  · exact (step_records_iff hp hnone (by nofun)).2 (fetch_of_fetchMacro_error (fetchMacro_of_run_ok hi hrun hlen))
  · exact (step_records_iff hp hnone (by nofun)).2 (fetch_of_fetchMicro_error hmacro (fetchMicro_of_length_le hlen))

/-- Settles O48: what a load answers and leaves, by the length of its array. -/
theorem loadWritesProgramStore : Obligations.LoadWritesProgramStore := by
  intro s p rest hp hwf
  obtain ⟨hchip, hbus, hpending⟩ := hostLoad_frame p (s.withPending rest)
  refine ⟨_, step_load hp, hchip, hostLoad_cfg p _, hbus, hpending, fun hlen => ?_, fun hlen => ?_⟩
  · rw [hostLoad_of_length (s := s.withPending rest) hlen]
    exact ⟨rfl, memRead_writeFrom_zero hwf hlen⟩
  · rw [hostLoad_of_length_ne (s := s.withPending rest) hlen]
    exact ⟨rfl, rfl⟩

/-- Settles O49: the bytes in index order are MemRead's, and after a load they are the array's. -/
theorem dumpAfterLoad : Obligations.DumpAfterLoad := by
  constructor
  · intro s rest hp
    exact ⟨_, _, step_dump hp, rfl, Memory.length_bytes _ _, memRead_eq_bytes _ _, rfl, rfl, rfl, rfl, rfl⟩
  · intro s p rest hp hwf hlen
    have hload : step s = .next
        (((s.withPending (.dump :: rest)).withProg (Memory.writeFrom s.prog 0 p)).withOut .loaded) :=
      (step_load hp).trans
        (congrArg Host.Outcome.next (hostLoad_of_length (s := s.withPending (.dump :: rest)) hlen))
    exact ⟨_, _, hload, step_dump rfl, congrArg Result.dumped (Memory.bytes_writeFrom hwf hlen)⟩

/-- Settles O51: what calc_init leaves, by the program it is given, and that no other step alters a faulted CORE. -/
theorem calcInitResets : Obligations.CalcInitResets := by
  constructor
  · intro s prog rest hp
    refine ⟨_, step_init hp, hostInit_cfg prog _, hostInit_pending prog _, ?_, ?_, ?_⟩
    · rintro rfl
      exact ⟨isReset_reset, rfl, rfl⟩
    · rintro p rfl hlen
      rw [hostInit_of_length (s := s.withPending rest) hlen]
      exact ⟨isReset_reset, rfl, memRead_writeFrom_zero ⟨List.Pairwise.nil, nofun⟩ hlen⟩
    · rintro p rfl hlen
      rw [hostInit_of_length_ne (s := s.withPending rest) hlen]
      exact ⟨rfl, rfl, rfl⟩
  · intro s t hfault h hclear
    obtain ⟨r, hr⟩ := Option.ne_none_iff_exists'.1 hfault
    rcases step_cases s with ⟨-, e⟩ | ⟨op, rest, hp, e⟩
    · cases h.symm.trans e
      exact absurd hclear hfault
    · by_contra hinit
      have hop : ∀ prog, op ≠ .init prog := fun prog ho => hinit ⟨prog, rest, ho ▸ hp⟩
      have hchip : t.chip = s.chip := hostStep_keeps_faulted_chip (s := s.withPending rest) hr hop (e.symm.trans h)
      exact hfault (hchip ▸ hclear)

/-- Settles O50: the two branches of MemRead. -/
theorem memReadBounds : Obligations.MemReadBounds :=
  fun _ m _ => ⟨fun h => memRead_of_lt h m, fun h => memRead_of_le h m⟩

end Sys2Proof.Safety

/-! PROOFS. The opcode map and the words of microinstructions: where each field stands in a word, what a word holds in
a field, which micro-operations it selects, and the bits of a word under another layout. -/

namespace Sys2Proof

/-! The opcode map (R81, R102) -/

theorem Instr.mem_all (i : Instr) : i ∈ Instr.all := by cases i <;> decide

theorem Instr.all_pairwise_index_lt : Instr.all.Pairwise fun i j => i.index < j.index := by decide

theorem Instr.index_injective : Function.Injective Instr.index := by
  intro i j h
  have hrow (k : Instr) : Instr.all[k.index]? = some k := by cases k <;> rfl
  exact Option.some.inj ((hrow i).symm.trans (h ▸ hrow j))

theorem Instr.code_injective : Function.Injective Instr.code := by
  have h : ∀ i ∈ Instr.all, ∀ j ∈ Instr.all, i.code = j.code → i = j := by decide
  exact fun i j => h i i.mem_all j j.mem_all

theorem Instr.code_ne_zero (i : Instr) : i.code ≠ 0 := by cases i <;> decide

/-- The code of a micro-operation lies within its own field. -/
theorem Instr.code_and_mask (i j : Instr) : i.code &&& j.mask = if i.field = j.field then i.code else 0 := by
  have h : ∀ i ∈ Instr.all, ∀ j ∈ Instr.all, i.code &&& j.mask = if i.field = j.field then i.code else 0 := by decide
  exact h i i.mem_all j j.mem_all

/-! The fields of a word (R81) -/

/-- The lowest bit of a field (R81). -/
def Field.low : Field → Nat
  | .aR => 0 | .aM => 1 | .aST => 2 | .aNR => 3 | .a10NC => 4 | .aS => 5 | .a4 => 6
  | .bS => 7 | .bNS => 8 | .bQ => 9 | .b6 => 10 | .b1 => 11
  | .gC => 12 | .gNC => 13 | .gNK => 14
  | .rw => 15 | .r1 => 18 | .r2 => 19 | .mw => 20 | .cw => 21 | .sw => 22 | .qw => 24 | .ks => 25 | .stw => 26

/-- The number of bits of a field (R81). -/
def Field.width : Field → Nat
  | .rw => 3
  | .sw | .stw => 2
  | _ => 1

/-- What the word holds in a field. -/
def Field.read (f : Field) (c : Code28) : BitVec f.width := c.extractLsb' f.low f.width

/-- The word that holds a value in a field and 0 in every other. -/
def Field.place (f : Field) (x : BitVec f.width) : Code28 := x.setWidth 28 <<< f.low

/-- STW is the model's own reading of its field (R84). -/
theorem Field.read_stw (c : Code28) : Field.stw.read c = stwField c := rfl

/-- A mask is its field full of ones. -/
theorem Instr.mask_eq_place (i : Instr) : i.mask = i.field.place (BitVec.allOnes _) := by cases i <;> rfl

theorem Instr.mask_congr {i j : Instr} (h : i.field = j.field) : i.mask = j.mask := by
  rw [i.mask_eq_place, j.mask_eq_place, h]

/-- Masking a word keeps what it holds in the mask's field. -/
theorem Instr.and_mask_eq_place (i : Instr) (c : Code28) : c &&& i.mask = i.field.place (i.field.read c) := by
  rw [i.mask_eq_place]
  ext k hk
  rcases Nat.lt_or_ge k i.field.low with hlow | hlow
  · simp [Field.place, hlow]
  · simp [Field.place, Field.read, Nat.not_lt.2 hlow, Nat.add_sub_of_le hlow, BitVec.getLsbD_eq_getElem hk, Bool.and_comm]

/-- Two words that agree in every field are equal: the fields cover the 28 bits. -/
theorem Code28.eq_of_and_mask_eq {c d : Code28} (h : ∀ i : Instr, c &&& i.mask = d &&& i.mask) : c = d := by
  have hcover : ∀ k : Fin 28, ∃ i ∈ Instr.all, i.mask.getLsbD k.val = true := by decide
  refine BitVec.eq_of_getLsbD_eq fun k hk => ?_
  obtain ⟨i, -, hbit⟩ := hcover ⟨k, hk⟩
  simpa [hbit] using congrArg (BitVec.getLsbD · k) (h i)

/-- Every value of a field is the code of a micro-operation of that field, but for 0 and for STW = 3 (R82-R84, R88). -/
theorem Field.exists_code_eq_place (f : Field) (x : BitVec f.width) (h0 : x ≠ 0) (h3 : f = .stw → x.toNat ≠ 3) :
    ∃ i ∈ Instr.all, i.field = f ∧ i.code = f.place x := by
  cases f <;> revert x <;> decide

/-- What a word without STW = 3 holds in a field is 0 or the code of a micro-operation of that field. -/
theorem Instr.and_mask_cases {c : Code28} (hstw : stwField c ≠ 3) (i : Instr) :
    c &&& i.mask = 0 ∨ ∃ j : Instr, j.field = i.field ∧ c &&& i.mask = j.code := by
  rw [and_mask_eq_place]
  by_cases h0 : i.field.read c = 0
  · exact .inl (by simp [h0, Field.place])
  · have h3 : i.field = .stw → (i.field.read c).toNat ≠ 3 := fun hfield h3 => by
      rw [hfield] at h3
      exact hstw (BitVec.eq_of_toNat_eq h3)
    obtain ⟨j, -, hfield, hcode⟩ := Field.exists_code_eq_place _ _ h0 h3
    exact .inr ⟨j, hfield, hcode.symm⟩

/-! What a word selects (R102) -/

theorem Instr.selectedBy_iff {c : Code28} {i : Instr} : i.selectedBy c = true ↔ c &&& i.mask = i.code := beq_iff_eq

/-- Of the micro-operations of one field a word selects at most one. -/
theorem Instr.eq_of_selectedBy {c : Code28} {i j : Instr} (hi : i.selectedBy c = true) (hj : j.selectedBy c = true)
    (hfield : i.field = j.field) : i = j := by
  rw [selectedBy_iff] at hi hj
  exact code_injective (hi.symm.trans (mask_congr hfield ▸ hj))

/-- The micro-operations that a word selects, in the order of the opcode map. -/
def Code28.selected (c : Code28) : Micro := Instr.all.filter (Instr.selectedBy c)

theorem Code28.mem_selected {c : Code28} {i : Instr} : i ∈ c.selected ↔ i.selectedBy c = true := by
  simp [Code28.selected, Instr.mem_all]

theorem Code28.selected_wellFormed (c : Code28) : Micro.WellFormed c.selected := by
  refine List.Pairwise.imp_of_mem (fun hi hj hlt => ⟨hlt, fun hfield => ?_⟩) (Instr.all_pairwise_index_lt.filter _)
  have heq := Instr.eq_of_selectedBy (mem_selected.1 hi) (mem_selected.1 hj) hfield
  exact absurd hlt (heq ▸ Nat.lt_irrefl _)

/-! The word of a microinstruction (R99) -/

/-- A microinstruction is determined by which micro-operations it has. -/
theorem Micro.WellFormed.ext {ops ops' : Micro} (h : ops.WellFormed) (h' : ops'.WellFormed)
    (hmem : ∀ i, i ∈ ops ↔ i ∈ ops') : ops = ops' := by
  refine List.map_injective_iff.2 Instr.index_injective ?_
  refine List.SortedLT.eq_of_mem_iff (List.pairwise_map.2 (h.imp And.left)).sortedLT
    (List.pairwise_map.2 (h'.imp And.left)).sortedLT fun n => ?_
  simp only [List.mem_map, hmem]

/-- In a field of none of its micro-operations, the word of a list is 0. -/
theorem encode28_and_mask_eq_zero {ops : Micro} {i : Instr} (h : ∀ j ∈ ops, j.field ≠ i.field) :
    encode28 ops &&& i.mask = 0 := by
  induction ops with
  | nil => simp [encode28]
  | cons k ops ih =>
    obtain ⟨hk, hops⟩ := List.forall_mem_cons.1 h
    simp [encode28, BitVec.and_or_distrib_right, Instr.code_and_mask, hk, ih hops]

/-- In the field of one of its micro-operations, the word of a microinstruction is that micro-operation's code. -/
theorem encode28_and_mask_of_mem {ops : Micro} (hwf : ops.WellFormed) {i : Instr} (hi : i ∈ ops) :
    encode28 ops &&& i.mask = i.code := by
  induction ops with
  | nil => cases hi
  | cons k ops ih =>
    obtain ⟨hk, hops⟩ := List.pairwise_cons.1 hwf
    rcases List.mem_cons.1 hi with rfl | hmem
    · have hrest : encode28 ops &&& i.mask = 0 := encode28_and_mask_eq_zero fun j hj => (hk j hj).2.symm
      simp [encode28, BitVec.and_or_distrib_right, Instr.code_and_mask, hrest]
    · simp [encode28, BitVec.and_or_distrib_right, Instr.code_and_mask, (hk i hmem).2, ih hops hmem]

/-- What the word of a microinstruction holds in a field is 0 or the code of one of its micro-operations. -/
theorem encode28_and_mask_cases {ops : Micro} (hwf : ops.WellFormed) (i : Instr) :
    encode28 ops &&& i.mask = 0 ∨ ∃ j ∈ ops, encode28 ops &&& i.mask = j.code := by
  by_cases h : ∃ j ∈ ops, j.field = i.field
  · obtain ⟨j, hj, hfield⟩ := h
    exact .inr ⟨j, hj, Instr.mask_congr hfield ▸ encode28_and_mask_of_mem hwf hj⟩
  · exact .inl (encode28_and_mask_eq_zero fun j hj hfield => h ⟨j, hj, hfield⟩)

/-- The word of a microinstruction selects its micro-operations and no other. -/
theorem selectedBy_encode28 {ops : Micro} (hwf : ops.WellFormed) (i : Instr) :
    i.selectedBy (encode28 ops) = true ↔ i ∈ ops := by
  rw [Instr.selectedBy_iff]
  refine ⟨fun h => ?_, encode28_and_mask_of_mem hwf⟩
  rcases encode28_and_mask_cases hwf i with h0 | ⟨j, hj, hcode⟩
  · exact absurd (h.symm.trans h0) i.code_ne_zero
  · exact Instr.code_injective (h.symm.trans hcode) ▸ hj

theorem selected_encode28 {ops : Micro} (hwf : ops.WellFormed) : Code28.selected (encode28 ops) = ops :=
  (Code28.selected_wellFormed _).ext hwf fun i => Code28.mem_selected.trans (selectedBy_encode28 hwf i)

/-- No microinstruction has STW = 3 (R88). -/
theorem stwField_encode28 {ops : Micro} (hwf : ops.WellFormed) : stwField (encode28 ops) ≠ 3 := by
  intro h
  have hboth : encode28 ops &&& Instr.stRot.mask = Field.stw.place 3 := by
    rw [Instr.and_mask_eq_place]
    exact congrArg Field.stw.place ((Field.read_stw _).trans h)
  rcases encode28_and_mask_cases hwf .stRot with h0 | ⟨j, -, hcode⟩
  · exact absurd (hboth.symm.trans h0) (by decide)
  · exact absurd (hboth.symm.trans hcode) (by cases j <;> decide)

/-- A word without STW = 3 is the word of what it selects: field by field, both hold the code of the selected
micro-operation, or 0 where there is none. -/
theorem encode28_selected {c : Code28} (hstw : stwField c ≠ 3) : encode28 c.selected = c := by
  refine Code28.eq_of_and_mask_eq fun i => ?_
  rcases Instr.and_mask_cases hstw i with h0 | ⟨j, hfield, hcode⟩
  · rw [h0, encode28_and_mask_eq_zero]
    intro j hj hfield
    rw [Code28.mem_selected, Instr.selectedBy_iff, Instr.mask_congr hfield, h0] at hj
    exact j.code_ne_zero hj.symm
  · rw [← Instr.mask_congr hfield] at hcode ⊢
    have hj : j ∈ c.selected := Code28.mem_selected.2 (Instr.selectedBy_iff.2 hcode)
    rw [encode28_and_mask_of_mem c.selected_wellFormed hj, hcode]

/-! The bits of a word under a layout (R91) -/

namespace Layout

theorem getLsbD_gather_custom (pos : Vector (Fin 32) 28) (w : MicroWord) (k : Fin 28) :
    ((Layout.custom pos).gather w).getLsbD k.val = w.getLsbD (pos.get k).val := by
  simp [gather]

theorem getLsbD_scatter_custom (pos : Vector (Fin 32) 28) (c : Code28) (p : Fin 32) :
    ((Layout.custom pos).scatter c).getLsbD p.val = true ↔ ∃ k : Fin 28, pos.get k = p ∧ c.getLsbD k.val = true := by
  simp [scatter]

theorem contains_custom_iff (pos : Vector (Fin 32) 28) (p : Fin 32) :
    pos.toList.contains p = true ↔ ∃ k : Fin 28, pos.get k = p := by
  simp [Vector.mem_iff_getElem, Fin.exists_iff, Vector.get_eq_getElem]

/-- Under a custom layout the reserved bits are the positions of no field. -/
theorem reservedBitSet_custom_iff (pos : Vector (Fin 32) 28) (w : MicroWord) :
    (Layout.custom pos).reservedBitSet w = true ↔
      ∃ p : Fin 32, (∀ k : Fin 28, pos.get k ≠ p) ∧ w.getLsbD p.val = true := by
  simp only [reservedBitSet, List.any_eq_true, List.mem_finRange, true_and, Bool.and_eq_true, Bool.not_eq_true',
    Bool.eq_false_iff, Ne, contains_custom_iff, not_exists, and_comm]

/-- Under the layout of R81 the reserved bits are those above bit 27 (R87). -/
theorem reservedBitSet_standard_iff (w : MicroWord) : Layout.standard.reservedBitSet w = true ↔ 2 ^ 28 ≤ w.toNat := by
  have := w.isLt
  simp only [reservedBitSet, bne_iff_ne, Ne, ← BitVec.toNat_inj, BitVec.extractLsb'_toNat, BitVec.ofNat_eq_ofNat,
    BitVec.toNat_ofNat, Nat.shiftRight_eq_div_pow]
  omega

theorem get_injective {pos : Vector (Fin 32) 28} (h : (Layout.custom pos).WellFormed = true) :
    Function.Injective pos.get := by
  have hnodup : pos.toList.Nodup := of_decide_eq_true h
  exact fun i j hij => Fin.ext ((List.Nodup.getElem_inj_iff hnodup).1 hij)

/-- The 28 bits put at their positions are read back, since no two share a position. -/
theorem gather_scatter {l : Layout} (h : l.WellFormed = true) (c : Code28) : l.gather (l.scatter c) = c := by
  cases l with
  | standard =>
    refine BitVec.eq_of_toNat_eq ?_
    have := c.isLt
    simp only [gather, scatter, BitVec.extractLsb'_toNat, BitVec.toNat_setWidth, Nat.shiftRight_zero]
    omega
  | custom pos =>
    refine BitVec.eq_of_getLsbD_eq fun k hk => Bool.eq_iff_iff.2 ?_
    rw [getLsbD_gather_custom pos _ ⟨k, hk⟩, getLsbD_scatter_custom]
    constructor
    · rintro ⟨j, hj, hbit⟩
      cases get_injective h hj
      exact hbit
    · exact fun hbit => ⟨⟨k, hk⟩, rfl, hbit⟩

/-- Putting the 28 bits at their positions sets no other bit. -/
theorem reservedBitSet_scatter (l : Layout) (c : Code28) : ¬ l.reservedBitSet (l.scatter c) = true := by
  cases l with
  | standard =>
    rw [reservedBitSet_standard_iff, Nat.not_le, scatter, BitVec.toNat_setWidth]
    exact (Nat.mod_le _ _).trans_lt c.isLt
  | custom pos =>
    rw [reservedBitSet_custom_iff]
    rintro ⟨p, hp, hbit⟩
    obtain ⟨k, hk, -⟩ := (getLsbD_scatter_custom pos c p).1 hbit
    exact hp k hk

/-- A word without a reserved bit is its 28 bits put back at their positions. -/
theorem scatter_gather {l : Layout} {w : MicroWord} (h : ¬ l.reservedBitSet w = true) : l.scatter (l.gather w) = w := by
  cases l with
  | standard =>
    rw [reservedBitSet_standard_iff, Nat.not_le] at h
    refine BitVec.eq_of_toNat_eq ?_
    simp only [gather, scatter, BitVec.extractLsb'_toNat, BitVec.toNat_setWidth, Nat.shiftRight_zero]
    omega
  | custom pos =>
    refine BitVec.eq_of_getLsbD_eq fun p hp => Bool.eq_iff_iff.2 ?_
    rw [getLsbD_scatter_custom pos _ ⟨p, hp⟩]
    constructor
    · rintro ⟨k, hk, hbit⟩
      rwa [getLsbD_gather_custom, hk] at hbit
    · intro hbit
      by_contra hnone
      rw [reservedBitSet_custom_iff] at h
      refine h ⟨⟨p, hp⟩, fun k hk => hnone ⟨k, hk, ?_⟩, hbit⟩
      rwa [getLsbD_gather_custom, hk]

end Layout

theorem stwField_gather_standard (w : MicroWord) : stwField (Layout.standard.gather w) = w.extractLsb' 26 2 := by
  ext k hk
  simp [stwField, Layout.gather]

theorem stwField_gather_custom (pos : Vector (Fin 32) 28) (w : MicroWord) :
    stwField ((Layout.custom pos).gather w) = 3 ↔
      w.getLsbD (pos.get 26).val = true ∧ w.getLsbD (pos.get 27).val = true := by
  have hthree : ∀ x : BitVec 2, x = 3 ↔ x.getLsbD 0 = true ∧ x.getLsbD 1 = true := by decide
  rw [hthree, ← Layout.getLsbD_gather_custom pos w 26, ← Layout.getLsbD_gather_custom pos w 27]
  simp [stwField]

end Sys2Proof

/-! PROOFS. The decoder: it undoes the encoder and is undone by it, it answers exactly the rows that a word matches, and
it rejects exactly the reserved words. -/

namespace Sys2Proof.Safety

open Sys2Proof.Machine

/-- What the decoder answers and when (R101). -/
theorem decode_eq_ok_iff {l : Layout} {w : MicroWord} {ops : Micro} :
    decode l w = .ok ops ↔
      ¬ l.reservedBitSet w = true ∧ stwField (l.gather w) ≠ 3 ∧ (l.gather w).selected = ops := by
  unfold decode
  by_cases hbits : l.reservedBitSet w = true
  · simp [hbits]
  · by_cases hstw : stwField (l.gather w) = 3
    · simp [hbits, hstw]
    · rw [if_neg hbits, if_neg hstw, Except.ok.injEq]
      exact ⟨fun h => ⟨hbits, hstw, h⟩, fun ⟨_, _, h⟩ => h⟩

/-- Settles O1: the 28 bits come back through the layout, they select the microinstruction, and no reserved bit and no
STW = 3 is among them. -/
theorem decodeOfEncode : Obligations.DecodeOfEncode := by
  intro l ops hl hwf
  have hgather : l.gather (encodeUnder l ops) = encode28 ops := Layout.gather_scatter hl _
  rw [decode_eq_ok_iff, hgather]
  exact ⟨Layout.reservedBitSet_scatter l _, stwField_encode28 hwf, selected_encode28 hwf⟩

/-- Settles O2: a legal word is its 28 bits put back, and those are the bits of what they select. -/
theorem encodeOfDecode : Obligations.EncodeOfDecode := by
  intro l w ops _ hdecode
  obtain ⟨hbits, hstw, rfl⟩ := decode_eq_ok_iff.1 hdecode
  refine ⟨Code28.selected_wellFormed _, ?_⟩
  rw [encodeUnder, encode28_selected hstw, Layout.scatter_gather hbits]

/-- Settles O3: the map is read off, and a legal word is its 28 bits below four zeros, so masking either is the same. -/
theorem wordSelectsMatchingRows : Obligations.WordSelectsMatchingRows := by
  refine ⟨by decide, fun w ops hdecode => ?_⟩
  obtain ⟨hbits, -, rfl⟩ := decode_eq_ok_iff.1 hdecode
  refine ⟨fun i => ?_, fun i hi j hj =>
    Instr.eq_of_selectedBy (Code28.mem_selected.1 hi) (Code28.mem_selected.1 hj)⟩
  have hword : (Layout.standard.gather w).setWidth 32 = w := Layout.scatter_gather hbits
  have hmasked : w &&& i.mask.setWidth 32 = (Layout.standard.gather w &&& i.mask).setWidth 32 := by
    rw [BitVec.setWidth_and, hword]
  rw [Code28.mem_selected, Instr.selectedBy_iff, hmasked]
  refine ⟨congrArg _, fun h => ?_⟩
  simpa using congrArg (BitVec.setWidth 28) h

/-- What a layout rejects is what the decoder's two conditions reject (R87, R88, R91). -/
theorem reservedUnder_iff (l : Layout) (w : MicroWord) :
    ReservedUnder l w ↔ l.reservedBitSet w = true ∨ stwField (l.gather w) = 3 := by
  cases l with
  | standard => rw [stwField_gather_standard, Layout.reservedBitSet, bne_iff_ne, ReservedUnder]
  | custom pos => rw [Layout.reservedBitSet_custom_iff, stwField_gather_custom, ReservedUnder]

theorem exists_decode_ok_iff (l : Layout) (w : MicroWord) : (∃ ops, decode l w = .ok ops) ↔ ¬ ReservedUnder l w := by
  simp [decode_eq_ok_iff, reservedUnder_iff]

/-- The legal words of the layout of R81, as numbers. -/
theorem not_reservedUnder_standard_iff (w : MicroWord) :
    ¬ ReservedUnder .standard w ↔ w.toNat < 2 ^ 28 ∧ w.toNat / 2 ^ 26 ≠ 3 := by
  rw [reservedUnder_iff, Layout.reservedBitSet_standard_iff, stwField_gather_standard, ← BitVec.toNat_inj,
    BitVec.extractLsb'_toNat, Nat.shiftRight_eq_div_pow]
  simp only [BitVec.ofNat_eq_ofNat, BitVec.toNat_ofNat]
  omega

/-- Settles O4: the decoder answers exactly where the layout does not reject. -/
theorem onlyReservedWordsRejected : Obligations.OnlyReservedWordsRejected :=
  ⟨fun w => (exists_decode_ok_iff .standard w).trans (not_reservedUnder_standard_iff w), exists_decode_ok_iff⟩

/-- Settles O5: the decoder is run on each word. -/
theorem sampleWordsDecode : Obligations.SampleWordsDecode := by
  unfold Obligations.SampleWordsDecode
  decide

end Sys2Proof.Safety

/-! PROOFS. A tick and its word: the microinstruction that a step runs, the tick of the word 0, the words that a tick
rejects, and the keys that a free KEY_Q tells apart. -/

namespace Sys2Proof.Safety

open Sys2Proof.Machine

/-! The microinstruction that a step runs -/

theorem step_of_fetching {s : State} {key : Byte} {mode : AngularMode} {rest : List HostOp} {f : Fetched}
    (hf : Fetching s key mode rest f) : step s = runMicro f key mode (s.withPending rest) := by
  obtain ⟨hp, hnone, hfetch⟩ := hf
  rw [step_tick hp]
  simp only [calcStep, State.withPending_chip, hnone, fetch_withPending, hfetch]

theorem runOps_singleton (i : Instr) (s : State) : runOps [i] s = exec i s := by
  obtain ⟨t, ht⟩ := exec_next i s
  rw [runOps_cons ht, ht]
  rfl

/-- Settles O16: the step is the tick from its microinstruction on, whose stages are those of the four clauses; of one
micro-operation alone, one of the two lists that run is empty. -/
theorem stepRunsDecodedMicroinstruction : Obligations.StepRunsDecodedMicroinstruction := by
  intro s key mode rest f hf
  simp only [step_of_fetching hf, runMicro_eq_next_iff]
  refine ⟨fun s1 s2 s3 h1 h2 h3 => ⟨s1, h1, .inr ⟨s2, s3, h2, h3, rfl⟩⟩,
    fun s1 flt h1 h2 => ⟨s1, h1, .inl ⟨flt, h2, rfl⟩⟩, ?_, ?_⟩
  · intro i s1 s2 hops hi h1 h2
    refine ⟨s1, ?_, .inr ⟨s2, s2, hops ▸ h2, ?_, rfl⟩⟩
    · simpa [hops, hi, runOps_singleton] using h1
    · simp [hops, hi, runOps]
  · intro i s1 s2 hops hi h1 h2
    refine ⟨beginTick key mode (s.withPending rest), ?_, .inr ⟨s1, s2, hops ▸ h1, ?_, rfl⟩⟩
    · simp [hops, hi, runOps]
    · simpa [hops, hi, runOps_singleton] using h2

/-! The word 0 (R86) -/

theorem ops_eq_nil_of_word_zero {s : State} {f : Fetched} (h : fetch s = .ok f) (hu : f.u = 0) : f.ops = [] := by
  obtain ⟨-, -, -, hdecode⟩ := fetch_ok h
  rw [hu, decode_zero] at hdecode
  exact (Except.ok.inj hdecode).symm

/-- A tick without micro-operations is the end of the tick on the registers as they were. -/
theorem step_of_ops_nil {s : State} {key : Byte} {mode : AngularMode} {rest : List HostOp} {f : Fetched}
    (hf : Fetching s key mode rest f) (hops : f.ops = []) :
    ∃ b, step s = .next (finishTick s.chip f ((s.withPending rest).withBus b)) := by
  rw [step_of_fetching hf]
  rcases addStage_cases f.ops (beginTick key mode (s.withPending rest)) with ⟨sum, cout, -, hadd⟩ | ⟨-, hused, -⟩
  · exact ⟨_, runMicro_eq_next_iff.2 ⟨_, by rw [hops]; rfl, .inr ⟨_, _, hadd, by rw [hops]; rfl, rfl⟩⟩⟩
  · rw [hops] at hused
    cases hused

theorem tickTotal_of_ops_nil {f : Fetched} (hops : f.ops = []) (s : State) (key : Byte) : tickTotal s key f = 0 := by
  simp [tickTotal, totalOf, alphaOf, betaOf, gammaOf, hops]

/-- One event comes out of a tick's end exactly at i = 41 (R201, R203). -/
theorem finishTick_event_iff (start : Chip) (f : Fetched) (s : State) :
    start.i = 41 ↔ (eventsIn (finishTick start f s).out).length = 1 := by
  by_cases hi : start.i = 41
  · obtain ⟨hevents, -⟩ := finishTick_display_at_end hi f s
    simp [hi, hevents]
  · obtain ⟨hevents, -⟩ := finishTick_display_before_end hi f s
    simp [hi, hevents]

/-- Settles O28: the word 0 selects nothing, so the tick is its end alone. -/
theorem nopWritesNoRegister : Obligations.NopWritesNoRegister := by
  intro s key mode rest f hf hu
  have hops := ops_eq_nil_of_word_zero hf.fetched hu
  obtain ⟨b, hstep⟩ := step_of_ops_nil hf hops
  obtain ⟨hr, hst, hS, hQ, hcarry, hfault, hi⟩ := finishTick_registers s.chip f ((s.withPending rest).withBus b)
  obtain ⟨hm, -, hcycle, hinput, houtput⟩ := finishTick_fifo s.chip f ((s.withPending rest).withBus b)
  refine ⟨hops, tickTotal_of_ops_nil hops s key, _, hstep, hfault.trans hf.noFault, hr, hst, hS, hQ, hcarry,
    fun j hj => (hm j).trans (if_neg hj), hinput, hcycle, houtput, ?_, hi, finishTick_event_iff _ _ _⟩
  rw [houtput]
  exact (hm _).trans (if_pos rfl)

/-! The words that a tick rejects (R87, R88) -/

theorem decodeStage_eq_error_iff {l : Layout} {ua : Nat} {w : MicroWord} :
    decodeStage l ua w = .error (.reservedField ua) ↔ ReservedUnder l w := by
  have h := exists_decode_ok_iff l w
  unfold decodeStage
  split
  · next e => simpa [e] using h
  · next ops e => simpa [e] using h

/-- Once a word is found, the fetch stages raise ReservedField exactly where the layout rejects it. -/
theorem fetch_eq_reservedField_iff {s : State} {aki ak : Nat} {w : MicroWord} (hmacro : fetchMacro s = .ok (aki, ak))
    (hword : s.cfg.urom[microSelect s.cfg ak s.chip]? = some w) :
    fetch s = .error (.reservedField (microSelect s.cfg ak s.chip)) ↔ ReservedUnder s.cfg.layout w := by
  have hmicro : fetchMicro s ak = .ok (microSelect s.cfg ak s.chip, w) := by simp only [fetchMicro, hword]
  rw [← decodeStage_eq_error_iff (ua := microSelect s.cfg ak s.chip)]
  simp only [fetch, hmacro, hmicro]
  cases decodeStage s.cfg.layout (microSelect s.cfg ak s.chip) w <;> simp

/-- Settles O35: a tick records what its fetch stages raise, in the fault register alone. -/
theorem reservedWordFaultsUnderEveryLayout : Obligations.ReservedWordFaultsUnderEveryLayout := by
  intro s key mode rest aki ak w hp hnone hmacro hword
  refine ⟨?_, reservedUnder_iff _ _⟩
  rw [← fetch_eq_reservedField_iff hmacro hword]
  constructor
  · rintro ⟨t, hstep, hchip⟩
    exact (step_records_iff hp hnone (by nofun)).1 ⟨t, hstep, congrArg Chip.fault hchip⟩
  · exact fun h => ⟨_, step_of_fetch_error hp hnone h, rfl⟩

/-- Settles O34: the case of the layout of R81. -/
theorem reservedWordFaults : Obligations.ReservedWordFaults := by
  intro s key mode rest aki ak w hp hnone hlayout hmacro hword hreserved
  obtain ⟨hfaults, -⟩ := reservedWordFaultsUnderEveryLayout s key mode rest aki ak w hp hnone hmacro hword
  exact hfaults.2 (hlayout ▸ hreserved)

/-! The keys of the keycode table (R94, R208) -/

theorem keycode_ne_zero (k : Key) : keycode k ≠ 0 := by cases k <;> decide

theorem isKeycode_keycode (k : Key) : isKeycode (keycode k) = true := by cases k <;> decide

/-- Settles O45: a key's value lies 1 to 15 above the value of no key, modulo 16. -/
theorem freeKeysDistinct : Obligations.FreeKeysDistinct := by
  intro g hfree pressed mode c h
  simp only [keyQ, hfree, freeKeyQ, if_neg (keycode_ne_zero pressed), isKeycode_keycode, if_true] at h
  have hval := congrArg BitVec.toNat h
  rw [BitVec.toNat_ofNat] at hval
  omega

end Sys2Proof.Safety

/-! PROOFS. The write-back of a tick: that the write-backs of a microinstruction, run one after another, write what
the closed form computes from the tick's start (R115, R116, R179), and with it the whole tick in closed form. -/

namespace Sys2Proof.Machine

open Sys2Proof.Safety

/-! The order of a microinstruction's fields (R81, R116) -/

/-- Later in the opcode map and in another field is in a higher field. -/
theorem field_low_lt {i j : Instr} (hlt : i.index < j.index) (hne : i.field ≠ j.field) :
    i.field.low < j.field.low := by
  have h : ∀ i ∈ Instr.all, ∀ j ∈ Instr.all, i.index < j.index → i.field ≠ j.field →
      i.field.low < j.field.low := by decide
  exact h i i.mem_all j j.mem_all hlt hne

/-- The sources stand below RW, the lowest field of the write-backs. -/
theorem rw_low_le_of_write {i : Instr} (hi : isSource i = false) : Field.rw.low ≤ i.field.low := by
  have h : ∀ i ∈ Instr.all, isSource i = false → Field.rw.low ≤ i.field.low := by decide
  exact h i i.mem_all hi

theorem wellFormed_of_fetch {s : State} {f : Fetched} (h : fetch s = .ok f) : f.ops.WellFormed := by
  obtain ⟨-, -, -, hdecode⟩ := fetch_ok h
  obtain ⟨-, -, hops⟩ := decode_eq_ok_iff.1 hdecode
  exact hops ▸ Code28.selected_wellFormed _

/-- A microinstruction has at most one value of each field (R82-R84). -/
theorem eq_of_field_eq {ops : Micro} (hwf : ops.WellFormed) {i j : Instr} (hi : i ∈ ops) (hj : j ∈ ops)
    (h : i.field = j.field) : i = j :=
  Instr.eq_of_selectedBy ((selectedBy_encode28 hwf i).2 hi) ((selectedBy_encode28 hwf j).2 hj) h

/-! What each register of the closed form depends on: its own field alone -/

/-- Two lists select the same value of a field. -/
def SameIn (fld : Field) (ops ops' : Micro) : Prop := ∀ i : Instr, i.field = fld → (i ∈ ops ↔ i ∈ ops')

/-- A microinstruction selects in a field what one of its micro-operations selects there. -/
theorem sameIn_singleton {ops : Micro} (hwf : ops.WellFormed) {i : Instr} (hi : i ∈ ops) :
    SameIn i.field ops [i] := fun _ hj =>
  ⟨fun h => List.mem_singleton.2 (eq_of_field_eq hwf h hi hj), fun h => List.mem_singleton.1 h ▸ hi⟩

theorem sameIn_nil {fld : Field} {ops : Micro} (h : ∀ x ∈ ops, x.field ≠ fld) : SameIn fld ops [] :=
  fun i hi => ⟨fun hmem => absurd hi (h i hmem), nofun⟩

theorem sameIn_cons_of_none {fld : Field} {ops : Micro} (h : ∀ x ∈ ops, x.field ≠ fld) (i : Instr) :
    SameIn fld (i :: ops) [i] := fun j hj => by
  have hmem : j ∉ ops := fun hmem => h j hmem hj
  simp [hmem]

theorem sameIn_cons_of_ne {fld : Field} {i : Instr} (h : i.field ≠ fld) (ops : Micro) : SameIn fld (i :: ops) ops :=
  fun j hj => by
    have hji : j ≠ i := fun e => h (e ▸ hj)
    simp [hji]

/-- What the SW field writes into S, from the state at the tick's start (R171-R173, R176). -/
def sAfter (ops : Micro) (c : Chip) (sum : Nibble) : Nibble :=
  if .swQ ∈ ops then c.qReg else if .swSum ∈ ops then sum else if .swQSum ∈ ops then c.qReg ||| sum else c.sReg

theorem rwValue_congr {ops ops' : Micro} (h : SameIn .rw ops ops') (c : Chip) (sum : Nibble) :
    rwValue ops c sum = rwValue ops' c sum := by
  simp only [rwValue, h .rwR3 rfl, h .rwSum rfl, h .rwS rfl, h .rwRSSum rfl, h .rwSSum rfl, h .rwRS rfl, h .rwRSum rfl]

theorem stAfter_congr {ops ops' : Micro} (h : SameIn .stw ops ops') (c : Chip) (sum : Nibble) (j : Fin 42) :
    stAfter ops c sum j = stAfter ops' c sum j := by
  simp only [stAfter, h .stShift rfl, h .stRot rfl]

theorem sAfter_congr {ops ops' : Micro} (h : SameIn .sw ops ops') (c : Chip) (sum : Nibble) :
    sAfter ops c sum = sAfter ops' c sum := by
  simp only [sAfter, h .swQ rfl, h .swSum rfl, h .swQSum rfl]

/-! The write-back of the closed form, register by register -/

section
variable (ops : Micro) (c : Chip) (sum : Nibble) (cout : Bit) (sample : Nibble)

@[simp] theorem writeBack_i : (writeBack ops c sum cout sample).i = c.i := by simp only [writeBack]

theorem writeBack_fault : (writeBack ops c sum cout sample).fault = c.fault := by simp only [writeBack]

theorem rewritten_writeBack : c.rewritten (writeBack ops c sum cout sample) = writeBack ops c sum cout sample := by
  simp only [Chip.rewritten, writeBack]

@[simp] theorem writeBack_r (j : Fin 42) : (writeBack ops c sum cout sample).r.get j = rAfter ops c sum j :=
  Vector.get_ofFn _ _

@[simp] theorem writeBack_m (j : Fin 42) : (writeBack ops c sum cout sample).m.get j = mAfter ops c j :=
  Vector.get_ofFn _ _

@[simp] theorem writeBack_st (j : Fin 42) : (writeBack ops c sum cout sample).st.get j = stAfter ops c sum j :=
  Vector.get_ofFn _ _

@[simp] theorem writeBack_sReg : (writeBack ops c sum cout sample).sReg = sAfter ops c sum := rfl

@[simp] theorem writeBack_qReg : (writeBack ops c sum cout sample).qReg =
    if .ks ∈ ops then sample else if .qwSum ∈ ops then sum else c.qReg := rfl

@[simp] theorem writeBack_carry : (writeBack ops c sum cout sample).carry = if .cw ∈ ops then cout else c.carry := rfl

end

theorem bank_ext {n w : Nat} {b b' : Vector (BitVec w) n} (h : ∀ j, b.get j = b'.get j) : b = b' :=
  Vector.ext fun j hj => h ⟨j, hj⟩

/-- A CORE with the registers of the closed write-back, and nothing else changed, is the closed write-back. -/
theorem eq_writeBack {ops : Micro} {c d : Chip} {sum sample : Nibble} {cout : Bit} (hframe : c.rewritten d = d)
    (hr : ∀ j, d.r.get j = rAfter ops c sum j) (hm : ∀ j, d.m.get j = mAfter ops c j)
    (hst : ∀ j, d.st.get j = stAfter ops c sum j) (hS : d.sReg = sAfter ops c sum)
    (hQ : d.qReg = if .ks ∈ ops then sample else if .qwSum ∈ ops then sum else c.qReg)
    (hcarry : d.carry = if .cw ∈ ops then cout else c.carry) : d = writeBack ops c sum cout sample := by
  have hR : d.r = (writeBack ops c sum cout sample).r := bank_ext fun j => by rw [hr, writeBack_r]
  have hM : d.m = (writeBack ops c sum cout sample).m := bank_ext fun j => by rw [hm, writeBack_m]
  have hST : d.st = (writeBack ops c sum cout sample).st := bank_ext fun j => by rw [hst, writeBack_st]
  rw [← hframe, Chip.rewritten, hR, hM, hST, hS, hQ, hcarry]
  rfl

/-- A write-back alone writes what the closed form has for it (R160-R178). -/
theorem exec_write_closed {i : Instr} (h : isSource i = false) (s : State) :
    exec i s = .next (s.withChip (writeBack [i] s.chip s.bus.sum s.bus.cout s.bus.keyQ)) := by
  obtain ⟨-, -, -, h1, h2, -⟩ := window_words_differ s.chip.i
  cases i
  case r1Sum | r2Sum =>
    refine congrArg (Host.Outcome.next ∘ s.withChip) (eq_writeBack rfl (fun j => ?_) ?_ ?_ ?_ ?_ ?_)
    · by_cases hj : j = s.chip.i <;> simp [Chip.writeR_get, rAfter, rwValue, hj, h1, h2, -Chip.writeR_r]
    all_goals simp [mAfter, stAfter, sAfter]
  case stShift | stRot =>
    refine congrArg (Host.Outcome.next ∘ s.withChip) (eq_writeBack rfl ?_ ?_ (Chip.writeTriple_get _ _ _ _) ?_ ?_ ?_)
    all_goals simp [Chip.writeTriple, rAfter, rwValue, mAfter, sAfter]
  case rwR3 | rwSum | rwS | rwRSSum | rwSSum | rwRS | rwRSum | mwS | cw | swQ | swSum | swQSum | qwSum | ks =>
    refine congrArg (Host.Outcome.next ∘ s.withChip) (eq_writeBack rfl ?_ ?_ ?_ ?_ ?_ ?_)
    all_goals simp +contextual [bank_get_set, Chip.ri3, Chip.ri, rAfter, rwValue, mAfter, stAfter, sAfter]
  all_goals exact absurd h (by decide)

/-! One write-back after another (R179): what comes later reads no register that is written already -/

section
variable {i : Instr} {ops : Micro} (hlater : ∀ j ∈ ops, i.field.low < j.field.low) (c : Chip) (sum : Nibble)
  (cout : Bit) (sample : Nibble)
include hlater

theorem not_mem_of_low_le {j : Instr} (h : j.field.low ≤ i.field.low) : j ∉ ops := fun hj => (hlater j hj).not_ge h

/-- RW is the lowest field of the write-backs, so no RW mode follows another write-back. -/
theorem rAfter_cons (hi : isSource i = false) (j : Fin 42) :
    rAfter (i :: ops) c sum j = rAfter ops (writeBack [i] c sum cout sample) sum j := by
  have hrw : ∀ x ∈ ops, x.field ≠ .rw := fun x hx h =>
    (hlater x hx).not_ge (h ▸ rw_low_le_of_write hi)
  have hfirst : rwValue (i :: ops) c sum = rwValue [i] c sum := rwValue_congr (sameIn_cons_of_none hrw i) c sum
  have hkept : rwValue ops (writeBack [i] c sum cout sample) sum = rwValue [i] c sum := by
    rw [rwValue_congr (sameIn_nil hrw)]
    simp [rwValue, rAfter]
  simp only [rAfter, hfirst, hkept, writeBack_i, writeBack_r, List.mem_cons, List.not_mem_nil, or_false]
  grind

/-- SW is above MW, so MW reads S as it was. -/
theorem mAfter_cons (j : Fin 42) :
    mAfter (i :: ops) c j = mAfter ops (writeBack [i] c sum cout sample) j := by
  by_cases hmw : .mwS ∈ ops
  · have hi : i.field ≠ .sw := fun h => not_mem_of_low_le hlater (h ▸ by decide) hmw
    have hS : sAfter [i] c sum = c.sReg := sAfter_congr (sameIn_cons_of_ne hi []) c sum
    simp only [mAfter, writeBack_i, writeBack_sReg, writeBack_m, hS, List.mem_cons, hmw]
    grind
  · simp [mAfter, hmw, eq_comm]

theorem stAfter_cons (j : Fin 42) :
    stAfter (i :: ops) c sum j = stAfter ops (writeBack [i] c sum cout sample) sum j := by
  by_cases h : i.field = .stw
  · have hnone : ∀ x ∈ ops, x.field ≠ .stw := fun x hx hstw => (hlater x hx).ne (by rw [h, hstw])
    rw [stAfter_congr (sameIn_cons_of_none hnone i), stAfter_congr (sameIn_nil hnone)]
    simp [stAfter]
  · have hst (k : Fin 42) : (writeBack [i] c sum cout sample).st.get k = c.st.get k := by
      rw [writeBack_st, stAfter_congr (sameIn_cons_of_ne h [])]
      rfl
    rw [stAfter_congr (sameIn_cons_of_ne h ops)]
    simp only [stAfter, writeBack_i, hst]

/-- QW and KS are above SW, so SW reads Q as it was. -/
theorem sAfter_cons : sAfter (i :: ops) c sum = sAfter ops (writeBack [i] c sum cout sample) sum := by
  by_cases hnone : ∀ x ∈ ops, x.field ≠ .sw
  · rw [sAfter_congr (sameIn_cons_of_none hnone i), sAfter_congr (sameIn_nil hnone)]
    simp [sAfter]
  · push Not at hnone
    obtain ⟨x, hx, hsw⟩ := hnone
    have hlow : i.field.low < Field.sw.low := hsw ▸ hlater x hx
    have hi : i.field ≠ .sw := fun h => hlow.ne (by rw [h])
    have hS : (writeBack [i] c sum cout sample).sReg = c.sReg := sAfter_congr (sameIn_cons_of_ne hi []) c sum
    have hQ : (writeBack [i] c sum cout sample).qReg = c.qReg := by
      have hks : .ks ≠ i := fun h => absurd hlow (h ▸ by decide)
      have hqw : .qwSum ≠ i := fun h => absurd hlow (h ▸ by decide)
      simp [hks, hqw]
    rw [sAfter_congr (sameIn_cons_of_ne hi ops)]
    simp only [sAfter, hS, hQ]

/-- The writes of a microinstruction that follow a write-back are those of the closed form, computed from what that
write-back left. -/
theorem writeBack_cons (hi : isSource i = false) :
    writeBack (i :: ops) c sum cout sample = writeBack ops (writeBack [i] c sum cout sample) sum cout sample := by
  refine (eq_writeBack ?_ (fun j => ?_) (fun j => ?_) (fun j => ?_) ?_ ?_ ?_).symm
  · simp only [Chip.rewritten, writeBack]
  · rw [writeBack_r, rAfter_cons hlater c sum cout sample hi]
  · rw [writeBack_m, mAfter_cons hlater c sum cout sample]
  · rw [writeBack_st, stAfter_cons hlater c sum cout sample]
  · rw [writeBack_sReg, sAfter_cons hlater c sum cout sample]
  · have hqw : .ks = i → .qwSum ∉ ops := fun h => not_mem_of_low_le hlater (h ▸ by decide)
    simp only [writeBack_qReg, List.mem_cons, List.not_mem_nil, or_false]
    grind
  · simp only [writeBack_carry, List.mem_cons, List.not_mem_nil, or_false]
    grind

end

/-- The write-backs of a microinstruction, run one after another, write what the closed form computes from the CORE
before the first of them (R115, R116, R179). -/
theorem runOps_writes_closed {ops : Micro} (hwf : ops.WellFormed) (h : ∀ i ∈ ops, isSource i = false) (s : State) :
    runOps ops s = .next (s.withChip (writeBack ops s.chip s.bus.sum s.bus.cout s.bus.keyQ)) := by
  induction ops generalizing s with
  | nil => exact congrArg (Host.Outcome.next ∘ s.withChip) (eq_writeBack rfl (by simp [rAfter, rwValue])
      (by simp [mAfter]) (fun _ => rfl) rfl rfl rfl)
  | cons i ops ih =>
    obtain ⟨hi, hops⟩ := List.forall_mem_cons.1 h
    obtain ⟨hfirst, hwf'⟩ := List.pairwise_cons.1 hwf
    have hlater : ∀ j ∈ ops, i.field.low < j.field.low := fun j hj => field_low_lt (hfirst j hj).1 (hfirst j hj).2
    rw [runOps_cons (exec_write_closed hi s), ih hwf' hops, writeBack_cons hlater _ _ _ _ hi]
    simp only [State.withChip]

/-- The closed form looks at the write-backs only. -/
theorem writeBack_filter (ops : Micro) : writeBack (ops.filter fun i => !isSource i) = writeBack ops := by
  funext c sum cout sample
  refine (eq_writeBack (rewritten_writeBack _ _ _ _ _) (fun j => ?_) (fun j => ?_) (fun j => ?_) ?_ ?_ ?_).symm <;>
  simp [rAfter, rwValue, mAfter, stAfter, sAfter, isSource]

/-! The tick -/

theorem addStage_of_add_ok {ops : Micro} {s : State} {sum : Nibble} {cout : Bit}
    (h : add s.cfg.adderMode (usesSum ops) s.bus.total = .ok (sum, cout)) :
    addStage ops s = .ok (s.withBus { s.bus with sum := sum, cout := cout }) := by
  simp only [addStage, h]

theorem addStage_of_add_error {ops : Micro} {s : State} {flt : Fault}
    (h : add s.cfg.adderMode (usesSum ops) s.bus.total = .error flt) : addStage ops s = .error flt := by
  simp only [addStage, h]

/-- The end of a tick reads of the tick's values its keypad_event only. -/
theorem finishTick_congr_bus (start : Chip) (f : Fetched) (s : State) {b b' : Bus} (h : b.ke = b'.ke) :
    finishTick start f (s.withBus b) = finishTick start f (s.withBus b') := by
  simp only [finishTick, State.withBus_bus, h]
  rfl

/-- A tick is its closed form: the terms come to those of the start, and the write-backs to one write-back. -/
theorem calcStep_eq_closedTick (key : Byte) (mode : AngularMode) (s : State) :
    calcStep key mode s = .next (closedTick key mode s) := by
  rcases calcStep_cases key mode s with ⟨r, hr, e⟩ | ⟨hnone, flt, hfetch, e⟩ | ⟨hnone, f, hfetch, e⟩
  · simp only [e, closedTick, hr]
  · simp only [e, closedTick, hnone, hfetch]
  rw [e, runMicro_eq_next_iff]
  refine ⟨_, runOps_beginTick f.ops key mode s, ?_⟩
  have htotal := total_joined_beginTick f.ops key mode s
  simp only [closedTick, hnone, hfetch, ← htotal]
  cases hadd : add s.cfg.adderMode (usesSum f.ops) ((beginTick key mode s).bus.joined (alphaOf f.ops s.chip)
    (betaOf f.ops s.chip) (gammaOf f.ops s.chip (keyEvent s.cfg key s.chip))).total with
  | error flt => exact .inl ⟨flt, addStage_of_add_error hadd, rfl⟩
  | ok v =>
    obtain ⟨sum, cout⟩ := v
    have hwf : Micro.WellFormed (f.ops.filter fun i => !isSource i) := (wellFormed_of_fetch hfetch).filter _
    refine .inr ⟨_, _, addStage_of_add_ok hadd,
      runOps_writes_closed hwf (fun i hi => by simpa using (List.mem_filter.1 hi).2) _, ?_⟩
    rw [writeBack_filter]
    exact finishTick_congr_bus _ _ (s.withChip _) rfl

end Sys2Proof.Machine

/-! PROOFS. Sequencing: what the fetch stages hand on, the tick in closed form, and the registers after a tick. -/

namespace Sys2Proof.Safety

open Sys2Proof.Machine

/-- Settles O17: every tick, faulting or not, is its closed form. -/
theorem tickIsClosedForm : Obligations.TickIsClosedForm := fun s key mode rest hp =>
  (step_tick hp).trans (calcStep_eq_closedTick key mode (s.withPending rest))

/-- Settles O54: a tick answers its closed form, and every other operation answers by definition. -/
theorem everyStepAnswers : Obligations.EveryStepAnswers := by
  intro s
  rcases step_cases s with ⟨-, e⟩ | ⟨op, rest, -, e⟩
  · exact ⟨s, e⟩
  · rw [e]
    cases op with
    | init prog => exact ⟨_, rfl⟩
    | tick key mode => exact ⟨_, calcStep_eq_closedTick key mode _⟩
    | load p => exact ⟨_, rfl⟩
    | dump => exact ⟨_, rfl⟩

/-- Settles O31: in a faulted state the tick is the report alone, and the other operations but calc_init leave the
CORE. -/
theorem faultedTickIsStuck : Obligations.FaultedTickIsStuck := by
  constructor
  · intro s key mode rest r hp hfault
    refine ⟨(s.withPending rest).withOut (.ticked [] (.faulted r)), ?_, rfl, rfl, rfl, rfl, rfl⟩
    rw [step_tick hp]
    simp only [calcStep, State.withPending_chip, hfault]
  · intro s t r hfault h hinit
    rcases step_cases s with ⟨-, e⟩ | ⟨op, rest, hp, e⟩
    · cases h.symm.trans e
      rfl
    · have hop : ∀ prog, op ≠ .init prog := fun prog ho => hinit prog rest (ho ▸ hp)
      exact hostStep_keeps_faulted_chip (s := s.withPending rest) hfault hop (e.symm.trans h)

/-- What R111 names is what FetchMacro answers. -/
theorem fetchMacro_of_fetches {s : State} {f : Fetched} (h : Fetches s f) : fetchMacro s = .ok (f.aki, f.ak) := by
  obtain ⟨hnew, hheld, -⟩ := h
  by_cases hi : s.chip.i = 0
  · obtain ⟨hrun, hrom⟩ := hnew hi
    simp only [fetchMacro, if_pos hi, hrun, hrom]
  · obtain ⟨haki, hak⟩ := hheld hi
    rw [fetchMacro_of_ne_zero hi, haki, hak]

/-- Settles O22: the stages answer what the rules name, and what the rules name determines each stage. -/
theorem fetchHandsOnExactly : Obligations.FetchHandsOnExactly := by
  refine fun s f => ⟨fetches_of_fetch_ok, fun h => ?_⟩
  have hmacro := fetchMacro_of_fetches h
  obtain ⟨-, -, hua, hword, hdecode⟩ := h
  have hmicro : fetchMicro s f.ak = .ok (f.ua, f.u) := by simp only [fetchMicro, ← hua, hword]
  have hstage : decodeStage s.cfg.layout f.ua f.u = .ok f.ops := by simp only [decodeStage, hdecode]
  simp only [fetch, hmacro, hmicro, hstage]

/-! The registers after a tick in the adder's range -/

/-- In range the adder answers the tick's sum; its carry-out is the tick's where CW takes it (R149-R151). -/
theorem add_of_inRange {s : State} {key : Byte} {f : Fetched} (h : InRange s key f) :
    ∃ cout, add s.cfg.adderMode (usesSum f.ops) (tickTotal s key f) = .ok (tickSum s key f, cout) ∧
      (.cw ∈ f.ops → cout = tickCout s key f) := by
  unfold tickSum tickCout
  cases hmode : s.cfg.adderMode with
  | binary4 => exact ⟨_, rfl, fun _ => rfl⟩
  | decimal =>
    by_cases ht : tickTotal s key f ≤ 19
    · exact ⟨_, if_pos ht, fun _ => rfl⟩
    · have hused : usesSum f.ops = false := by
        rcases h with h | h | h
        · exact absurd h ht
        · exact nomatch hmode.symm.trans h
        · exact h
      refine ⟨1, by simp [add, addDec, ht, hused], fun hcw => ?_⟩
      have hcw' := List.any_eq_false.1 hused _ hcw
      exact absurd rfl hcw'

theorem writeBack_congr_cout {ops : Micro} {cout cout' : Bit} (h : .cw ∈ ops → cout = cout') (c : Chip)
    (sum sample : Nibble) : writeBack ops c sum cout sample = writeBack ops c sum cout' sample := by
  by_cases hcw : .cw ∈ ops
  · rw [h hcw]
  · simp only [writeBack, if_neg hcw]

/-- The CORE after the write-back of the tick that is about to run `f`, where it raises no AluRange. -/
def tickWriteBack (s : State) (key : Byte) (mode : AngularMode) (f : Fetched) : Chip :=
  writeBack f.ops s.chip (tickSum s key f) (tickCout s key f) (keyQ s.cfg key mode s.chip)

/-- After a tick in the adder's range the banks R and ST, S, Q and carry are those of its write-back. -/
theorem step_registers {s : State} {key : Byte} {mode : AngularMode} {rest : List HostOp} {f : Fetched}
    (hf : Fetching s key mode rest f) (hrange : InRange s key f) :
    ∃ t, step s = .next t ∧ t.chip.fault = none ∧ t.chip.r = (tickWriteBack s key mode f).r ∧
      t.chip.st = (tickWriteBack s key mode f).st ∧ t.chip.sReg = (tickWriteBack s key mode f).sReg ∧
      t.chip.qReg = (tickWriteBack s key mode f).qReg ∧ t.chip.carry = (tickWriteBack s key mode f).carry := by
  obtain ⟨hp, hnone, hfetch⟩ := hf
  obtain ⟨cout, hadd, hcout⟩ := add_of_inRange hrange
  have hclosed : closedTick key mode (s.withPending rest) = finishTick s.chip f
      (((s.withPending rest).withChip (tickWriteBack s key mode f)).withBus
        { Bus.idle with ke := keyEvent s.cfg key s.chip }) := by
    rw [tickWriteBack, ← writeBack_congr_cout hcout]
    rw [tickTotal] at hadd
    simp only [closedTick, State.withPending_chip, State.withPending_cfg, hnone, fetch_withPending, hfetch, hadd]
  have hstep := tickIsClosedForm s key mode rest hp
  rw [hclosed] at hstep
  obtain ⟨hr, hst, hS, hQ, hcarry, hfault, -⟩ := finishTick_registers s.chip f
    (((s.withPending rest).withChip (tickWriteBack s key mode f)).withBus
      { Bus.idle with ke := keyEvent s.cfg key s.chip })
  have hkept : (tickWriteBack s key mode f).fault = s.chip.fault := writeBack_fault _ _ _ _ _
  exact ⟨_, hstep, hfault.trans (hkept.trans hnone), hr, hst, hS, hQ, hcarry⟩

/-- Settles O24: bank R is that of the write-back, in which the RW mode's value is that of the one RW mode. -/
theorem bankRAfterTick : Obligations.BankRAfterTick := by
  intro s key mode rest f hf hrange
  obtain ⟨t, hstep, hfault, hr, -⟩ := step_registers hf hrange
  have hget (j : Fin 42) : t.chip.r.get j = rAfter f.ops s.chip (tickSum s key f) j := by
    rw [hr, tickWriteBack, writeBack_r]
  have hri : t.chip.r.get s.chip.i = rwValue f.ops s.chip (tickSum s key f) := (hget _).trans (if_pos rfl)
  have hmode {i : Instr} (hi : i ∈ f.ops) (hrw : i.field = .rw) :
      t.chip.r.get s.chip.i = rwValue [i] s.chip (tickSum s key f) :=
    hri.trans (rwValue_congr (hrw ▸ sameIn_singleton (wellFormed_of_fetch hf.fetched) hi) _ _)
  obtain ⟨-, -, -, h1, h2, h12⟩ := window_words_differ s.chip.i
  refine ⟨t, hstep, hfault, fun h => hmode h rfl, fun h => hmode h rfl, fun h => hmode h rfl,
    fun h => hmode h rfl, fun h => hmode h rfl, fun h => hmode h rfl, fun h => hmode h rfl,
    fun h => hri.trans (rwValue_congr (sameIn_nil h) _ _), ?_, ?_, fun j h0 h1 h2 => ?_⟩
  · simp [hget, rAfter, h1.symm, h12]
  · simp [hget, rAfter, h2.symm, h12.symm]
  · simp [hget, rAfter, h0, h1, h2]

/-- Settles O25: bank ST is that of the write-back, whose update is that of the one STW mode. -/
theorem bankStAfterTick : Obligations.BankStAfterTick := by
  intro s key mode rest f hf hrange
  obtain ⟨t, hstep, hfault, -, hst, -⟩ := step_registers hf hrange
  have hget (j : Fin 42) : t.chip.st.get j = stAfter f.ops s.chip (tickSum s key f) j := by
    rw [hst, tickWriteBack, writeBack_st]
  have hmode {i : Instr} (hi : i ∈ f.ops) (hstw : i.field = .stw) (j : Fin 42) :
      t.chip.st.get j = stAfter [i] s.chip (tickSum s key f) j :=
    (hget j).trans (stAfter_congr (hstw ▸ sameIn_singleton (wellFormed_of_fetch hf.fetched) hi) _ _ _)
  obtain ⟨h01, h02, h12, -⟩ := window_words_differ s.chip.i
  refine ⟨t, hstep, hfault, fun h => ?_, fun h => ?_, fun h => bank_ext fun j => ?_, fun j h0 h1 h2 => ?_⟩
  · simp [hmode h rfl, stAfter, h01.symm, h02.symm, h12.symm]
  · simp [hmode h rfl, stAfter, h01.symm, h02.symm, h12.symm]
  · exact (hget j).trans (stAfter_congr (sameIn_nil h) _ _ _)
  · simp [hget, stAfter, h0, h1, h2]

/-- Settles O26: S, Q and carry are those of the write-back, where S has the value of the one SW mode. -/
theorem scalarsAfterTick : Obligations.ScalarsAfterTick := by
  intro s key mode rest f hf hrange
  obtain ⟨t, hstep, hfault, -, -, hS, hQ, hcarry⟩ := step_registers hf hrange
  have hmode {i : Instr} (hi : i ∈ f.ops) (hsw : i.field = .sw) :
      t.chip.sReg = sAfter [i] s.chip (tickSum s key f) :=
    hS.trans (sAfter_congr (hsw ▸ sameIn_singleton (wellFormed_of_fetch hf.fetched) hi) _ _)
  exact ⟨t, hstep, hfault, hcarry, fun h => hmode h rfl, fun h => hmode h rfl, fun h => hmode h rfl,
    fun h => hS.trans (sAfter_congr (sameIn_nil h) _ _), hQ⟩

end Sys2Proof.Safety

/-! PROOFS. The terms and the adder: what a source adds to its term, what the adder answers and when it faults, and
which tick takes that fault. -/

namespace Sys2Proof.Machine

open Sys2Proof.Safety

/-! The term sources (R130-R144) -/

theorem joinsAlpha_of_exec_orAlpha {i : Instr} {v : State → Nibble} (h : ∀ s, exec i s = .next (s.orAlpha (v s))) :
    JoinsAlpha i v := fun s => ⟨_, h s, rfl, rfl, fun _ => rfl⟩

theorem joinsBeta_of_exec_orBeta {i : Instr} {v : State → Nibble} (h : ∀ s, exec i s = .next (s.orBeta (v s))) :
    JoinsBeta i v := fun s => ⟨_, h s, rfl, rfl, fun _ => rfl⟩

theorem joinsGamma_of_exec_orGamma {i : Instr} {b : State → Bit} (h : ∀ s, exec i s = .next (s.orGamma (b s))) :
    JoinsGamma i b := fun s => ⟨_, h s, rfl, rfl, fun _ => rfl⟩

theorem exec_aNR (s : State) : exec .aNR s = .next (s.orAlpha (~~~ (s.chip.r.get s.chip.i))) := by
  rw [← complement4_eq]
  rfl

theorem exec_bNS (s : State) : exec .bNS s = .next (s.orBeta (~~~ s.chip.sReg)) := by
  rw [← complement4_eq]
  rfl

theorem exec_gNC (s : State) : exec .gNC s = .next (s.orGamma (~~~ s.chip.carry)) := by
  rw [← complement1_eq]
  rfl

theorem exec_gNK (s : State) : exec .gNK s = .next (s.orGamma (~~~ s.bus.ke)) := by
  rw [← complement1_eq]
  rfl

/-! The adder (R148-R150) -/

theorem add_decimal_of_le {t : Nat} (h : t ≤ 19) (used : Bool) :
    add .decimal used t = .ok (BitVec.ofNat 4 (t % 10), BitVec.ofNat 1 (t / 10)) := if_pos h

theorem add_decimal_used_of_ge {t : Nat} (h : 20 ≤ t) : add .decimal true t = .error (.aluRange t) :=
  if_neg (Nat.not_le.2 h)

theorem add_decimal_unused_of_ge {t : Nat} (h : 20 ≤ t) :
    add .decimal false t = .ok (BitVec.ofNat 4 (t % 10), 1) := if_neg (Nat.not_le.2 h)

theorem add_binary4 (used : Bool) (t : Nat) :
    add .binary4 used t = .ok (BitVec.ofNat 4 (t % 16), BitVec.ofNat 1 (t / 16)) := rfl

/-- The adder faults only as AluRange, and only where the decimal digit and carry of a t out of range are consumed. -/
theorem add_eq_error_iff {mode : AdderMode} {used : Bool} {t : Nat} {flt : Fault} :
    add mode used t = .error flt ↔ mode = .decimal ∧ 20 ≤ t ∧ used = true ∧ flt = .aluRange t := by
  cases mode with
  | binary4 => simp [add_binary4]
  | decimal =>
    rcases Nat.lt_or_ge t 20 with ht | ht
    · simp [add_decimal_of_le (Nat.le_of_lt_succ ht), ht]
    · cases used
      · simp [add_decimal_unused_of_ge ht]
      · simp [add_decimal_used_of_ge ht, ht, eq_comm]

/-! The consumers of sum and cout (R151) -/

theorem consumesSum_iff {i : Instr} :
    consumesSum i = true ↔ (i = .rwSum ∨ i = .rwRSSum ∨ i = .rwSSum ∨ i = .rwRSum) ∨ i = .r1Sum ∨ i = .r2Sum ∨
      i = .cw ∨ (i = .swSum ∨ i = .swQSum) ∨ i = .qwSum ∨ i = .stShift := by
  cases i <;> decide

theorem usesSum_iff {ops : Micro} :
    usesSum ops = true ↔ (.rwSum ∈ ops ∨ .rwRSSum ∈ ops ∨ .rwSSum ∈ ops ∨ .rwRSum ∈ ops) ∨ .r1Sum ∈ ops ∨
      .r2Sum ∈ ops ∨ .cw ∈ ops ∨ (.swSum ∈ ops ∨ .swQSum ∈ ops) ∨ .qwSum ∈ ops ∨ .stShift ∈ ops := by
  simp only [usesSum, List.any_eq_true, consumesSum_iff, and_or_left, exists_or, exists_eq_right]

/-! The fault of the adder in a tick (R221) -/

/-- A tick that has fetched its microinstruction records a fault exactly when the adder raises it: no stage after the
adder faults. -/
theorem step_records_iff_add_error {s : State} {key : Byte} {mode : AngularMode} {rest : List HostOp} {f : Fetched}
    (hf : Fetching s key mode rest f) {flt : Fault} :
    (∃ t, step s = .next t ∧ t.chip.fault = some ⟨flt, s.chip.i, s.chip.slot⟩) ↔
      add s.cfg.adderMode (usesSum f.ops) (tickTotal s key f) = .error flt := by
  obtain ⟨hp, hnone, hfetch⟩ := hf
  rw [tickIsClosedForm s key mode rest hp]
  simp only [closedTick, State.withPending_chip, State.withPending_cfg, hnone, fetch_withPending, hfetch, tickTotal,
    Host.Outcome.next.injEq, exists_eq_left']
  cases add s.cfg.adderMode (usesSum f.ops) (totalOf f.ops s.chip (keyEvent s.cfg key s.chip)) with
  | error flt' => simp [State.takeFault, State.recordOf]
  | ok v =>
    obtain ⟨sum, cout⟩ := v
    simp [finishTick_fault, writeBack_fault, hnone]

end Sys2Proof.Machine

/-! PROOFS. The terms and the adder: the contribution of each source, the terms of a tick, and the adder's range. -/

namespace Sys2Proof.Safety

open Sys2Proof.Machine

/-- Settles O18: the sources join the terms of the closed form to terms that begin at 0. -/
theorem termsAreOrsOfContributions : Obligations.TermsAreOrsOfContributions := fun ops key mode s =>
  ⟨_, runOps_beginTick ops key mode s, BitVec.zero_or, BitVec.zero_or, BitVec.zero_or, rfl⟩

/-- Settles O21: of a fetched microinstruction's tick only the adder faults, and it does exactly in these cases. -/
theorem aluRangeExactly : Obligations.AluRangeExactly := by
  intro s key mode rest f hf
  rw [step_records_iff_add_error hf, add_eq_error_iff, usesSum_iff]
  simp only [and_true]

/-- Settles O6: each source's meaning is one OR into alpha. -/
theorem alphaSourcesJoinAlpha : Obligations.AlphaSourcesJoinAlpha :=
  ⟨joinsAlpha_of_exec_orAlpha fun _ => rfl, joinsAlpha_of_exec_orAlpha fun _ => rfl,
    joinsAlpha_of_exec_orAlpha fun _ => rfl, joinsAlpha_of_exec_orAlpha exec_aNR,
    joinsAlpha_of_exec_orAlpha fun _ => rfl, joinsAlpha_of_exec_orAlpha fun _ => rfl,
    joinsAlpha_of_exec_orAlpha fun _ => rfl⟩

/-- Settles O7: each source's meaning is one OR into beta. -/
theorem betaSourcesJoinBeta : Obligations.BetaSourcesJoinBeta :=
  ⟨joinsBeta_of_exec_orBeta fun _ => rfl, joinsBeta_of_exec_orBeta exec_bNS, joinsBeta_of_exec_orBeta fun _ => rfl,
    joinsBeta_of_exec_orBeta fun _ => rfl, joinsBeta_of_exec_orBeta fun _ => rfl⟩

/-- Settles O8: each source's meaning is one OR into gamma. -/
theorem gammaSourcesJoinGamma : Obligations.GammaSourcesJoinGamma :=
  ⟨joinsGamma_of_exec_orGamma fun _ => rfl, joinsGamma_of_exec_orGamma exec_gNC, joinsGamma_of_exec_orGamma exec_gNK⟩

/-- Settles O19: the three cases of the decimal adder; up to 19 its digit and carry are exact in 4 bits and 1. -/
theorem decimalAdder : Obligations.DecimalAdder := by
  refine ⟨fun used t ht => ⟨_, _, add_decimal_of_le ht used, ?_⟩, fun _ => add_decimal_used_of_ge,
    fun _ => add_decimal_unused_of_ge⟩
  simp only [BitVec.toNat_ofNat]
  omega

/-- Settles O20: up to 31 the quotient and remainder by 16 are exact in 1 bit and 4. -/
theorem binaryAdder : Obligations.BinaryAdder := by
  refine fun used t ht => ⟨_, _, add_binary4 used t, ?_⟩
  simp only [BitVec.toNat_ofNat]
  omega

end Sys2Proof.Safety

/-! PROOFS. The write-back: micro-operations that write one register, rotations of ST one after another, and the
write-back of a tick as the end of the tick finds it. -/

namespace Sys2Proof.Machine

open Sys2Proof.Safety

/-! Micro-operations that write one scalar register (R170-R175) -/

theorem writesS_of_exec_setS {i : Instr} {v : State → Nibble}
    (h : ∀ s, exec i s = .next (s.withChip (s.chip.setS (v s)))) (s : State) :
    ∃ t, exec i s = .next t ∧ t.chip.sReg = v s ∧ OnlyS s t := ⟨_, h s, rfl, rfl, fun _ => rfl⟩

theorem writesQ_of_exec_setQ {i : Instr} {v : State → Nibble}
    (h : ∀ s, exec i s = .next (s.withChip (s.chip.setQ (v s)))) (s : State) :
    ∃ t, exec i s = .next t ∧ t.chip.qReg = v s ∧ OnlyQ s t := ⟨_, h s, rfl, rfl, fun _ => rfl⟩

/-- Writing a word of M changes nothing but M. -/
theorem onlyM_writeM (s : State) (j : Fin 42) (v : Nibble) : OnlyM s (s.withChip (s.chip.writeM j v)) :=
  ⟨rfl, fun _ => rfl⟩

/-- Writing carry changes nothing but carry. -/
theorem onlyCarry_setCarry (s : State) (b : Bit) : OnlyCarry s (s.withChip (s.chip.setCarry b)) :=
  ⟨rfl, fun _ => rfl⟩

/-! Triples of ST at one window offset (R178) -/

/-- Two states of the CORE that differ in ST at most are equal where the words of ST are. -/
theorem Chip.eq_of_st_get {c d : Chip} (hframe : d = { c with st := d.st }) (hst : ∀ k, d.st.get k = c.st.get k) :
    d = c := by
  rw [hframe, bank_ext hst]

/-- A second triple at i replaces the first. -/
theorem Chip.writeTriple_writeTriple (c : Chip) (x y z x' y' z' : Nibble) :
    (c.writeTriple x y z).writeTriple x' y' z' = c.writeTriple x' y' z' := by
  refine Chip.eq_of_st_get rfl fun k => ?_
  simp only [Chip.writeTriple_get, Chip.writeTriple_i]
  split_ifs <;> rfl

/-- Writing the triple that stands at i changes nothing. -/
theorem Chip.writeTriple_self (c : Chip) : c.writeTriple c.sti c.sti1 c.sti2 = c := by
  refine Chip.eq_of_st_get rfl fun k => ?_
  rw [Chip.writeTriple_get]
  split_ifs with h0 h1 h2
  · rw [h0]; rfl
  · rw [h1]; rfl
  · rw [h2]; rfl
  · rfl

theorem exec_stRot (s : State) :
    exec .stRot s = .next (s.withChip (s.chip.writeTriple s.chip.sti1 s.chip.sti2 s.chip.sti)) := rfl

/-- A rotation of a triple that was written at i writes it rotated. -/
theorem exec_stRot_writeTriple (s : State) (x y z : Nibble) :
    exec .stRot (s.withChip (s.chip.writeTriple x y z)) = .next (s.withChip (s.chip.writeTriple y z x)) := by
  obtain ⟨h0, h1, h2, -⟩ := s.chip.writeTriple_words x y z
  simp only [exec_stRot, State.withChip_chip, Chip.sti, Chip.sti1, Chip.sti2, Chip.writeTriple_i, h0, h1, h2,
    Chip.writeTriple_writeTriple]
  rfl

/-! The write-back that the end of a tick finds -/

theorem mAfter_window (ops : Micro) (c : Chip) :
    mAfter ops c c.i = if .mwS ∈ ops then c.sReg else c.m.get c.i := by simp only [mAfter, true_and]

theorem mAfter_of_ne (ops : Micro) {c : Chip} {j : Fin 42} (h : j ≠ c.i) : mAfter ops c j = c.m.get j :=
  if_neg fun hj => h hj.1

/-- The write-back of a tick leaves the window offset, the fault register and the FIFO chip. -/
theorem tickWriteBack_keeps (s : State) (key : Byte) (mode : AngularMode) (f : Fetched) :
    (tickWriteBack s key mode f).i = s.chip.i ∧ (tickWriteBack s key mode f).fault = s.chip.fault ∧
      (tickWriteBack s key mode f).fifoData = s.chip.fifoData ∧
      (tickWriteBack s key mode f).fifoCycle = s.chip.fifoCycle := by
  simp only [tickWriteBack, writeBack, and_self]

/-- A tick in the adder's range is the end of the tick on its write-back. -/
theorem step_eq_finishTick {s : State} {key : Byte} {mode : AngularMode} {rest : List HostOp} {f : Fetched}
    (hf : Fetching s key mode rest f) (hrange : InRange s key f) :
    ∃ b, step s =
      .next (finishTick s.chip f (((s.withPending rest).withChip (tickWriteBack s key mode f)).withBus b)) := by
  obtain ⟨hp, hnone, hfetch⟩ := hf
  obtain ⟨cout, hadd, hcout⟩ := add_of_inRange hrange
  rw [tickTotal] at hadd
  rw [tickIsClosedForm s key mode rest hp, tickWriteBack, ← writeBack_congr_cout hcout]
  simp only [closedTick, State.withPending_chip, State.withPending_cfg, hnone, fetch_withPending, hfetch, hadd]
  exact ⟨_, rfl⟩

/-- After a tick in the adder's range the FIFO chip has taken one step with M[i] as MW left it, and M[i] is by the link
(R169, R190, R193, R195). -/
theorem step_fifo {s : State} {key : Byte} {mode : AngularMode} {rest : List HostOp} {f : Fetched}
    (hf : Fetching s key mode rest f) (hrange : InRange s key f) :
    ∃ t, step s = .next t ∧ t.chip.fault = none ∧ t.chip.fifoCycle = s.chip.fifoCycle + 1 ∧
      t.chip.fifoInput = mAfter f.ops s.chip s.chip.i ∧
      t.chip.fifoOutput = s.chip.fifoData.get (s.chip.fifoCycle + 1) ∧
      (∀ k, t.chip.fifoData.get k =
        if k = s.chip.fifoCycle + 1 then t.chip.fifoInput else s.chip.fifoData.get k) ∧
      ∀ j, t.chip.m.get j = if j = s.chip.i then
        (if s.cfg.fifoLink = .ring then t.chip.fifoOutput else t.chip.fifoInput) else s.chip.m.get j := by
  obtain ⟨b, hstep⟩ := step_eq_finishTick hf hrange
  obtain ⟨hi, hfault, hcells, hcounter⟩ := tickWriteBack_keeps s key mode f
  have hword (j : Fin 42) : (tickWriteBack s key mode f).m.get j = mAfter f.ops s.chip j := writeBack_m _ _ _ _ _ j
  obtain ⟨hm, hdata, hcycle, hinput, houtput⟩ := finishTick_fifo s.chip f
    (((s.withPending rest).withChip (tickWriteBack s key mode f)).withBus b)
  simp only [State.withBus_chip, State.withChip_chip, State.withBus_cfg, State.withChip_cfg, State.withPending_cfg, hi,
    hcells, hcounter, hword] at hm hdata hcycle hinput houtput
  refine ⟨_, hstep, (finishTick_fault _ _ _).trans (hfault.trans hf.noFault), hcycle, hinput, houtput, fun k => ?_,
    fun j => ?_⟩
  · rw [hinput, hdata]
  · rw [hm, hinput, houtput]
    split_ifs with hj
    · rfl
    · rfl
    · exact mAfter_of_ne _ hj

end Sys2Proof.Machine

/-! PROOFS. The write-back: what each write-back alone writes and keeps, three rotations, and bank M and the FIFO chip
after a tick. -/

namespace Sys2Proof.Safety

open Sys2Proof.Machine

/-- Settles O15: the triple at i goes round once, and putting it back changes nothing. -/
theorem threeRotationsRestore : Obligations.ThreeRotationsRestore := by
  intro s
  rw [runOps_cons (exec_stRot s), runOps_cons (exec_stRot_writeTriple s _ _ _),
    runOps_cons (exec_stRot_writeTriple s _ _ _), Chip.writeTriple_self]
  rfl

/-- Settles O27: the end of the tick is on the write-back, where M[i] is as MW left it. -/
theorem bankMAndFifoAfterTick : Obligations.BankMAndFifoAfterTick := by
  intro s key mode rest f hf hrange
  obtain ⟨t, hstep, hfault, hcycle, hinput, houtput, hdata, hm⟩ := step_fifo hf hrange
  refine ⟨t, hstep, hfault, ?_, hinput.trans (mAfter_window _ _), houtput, (hdata _).trans (if_pos rfl),
    fun k hk => (hdata k).trans (if_neg hk), fun hlink => ?_, fun hlink => ?_, fun j hj => (hm j).trans (if_neg hj)⟩
  · rw [hcycle, Fin.val_add, Fin.val_one]
  · rw [hm, if_pos rfl, if_pos hlink]
  · rw [hm, if_pos rfl, if_neg (by simp [hlink])]

/-- Settles O9: each is one write of its value into R at i. -/
theorem rwModesWriteRi : Obligations.RwModesWriteRi :=
  ⟨putsR_of_exec_writeR fun _ => rfl, putsR_of_exec_writeR fun _ => rfl, putsR_of_exec_writeR fun _ => rfl,
    putsR_of_exec_writeR fun _ => rfl, putsR_of_exec_writeR fun _ => rfl, putsR_of_exec_writeR fun _ => rfl,
    putsR_of_exec_writeR fun _ => rfl⟩

/-- Settles O11: MW is one write of S into M at i, CW one of the carry-out into carry. -/
theorem mwAndCwWrite : Obligations.MwAndCwWrite :=
  ⟨fun s => ⟨_, rfl, (Chip.writeM_get _ _ _ _).trans (if_pos rfl),
      fun _ hk => (Chip.writeM_get _ _ _ _).trans (if_neg hk), onlyM_writeM s _ _⟩,
    fun s => ⟨_, rfl, rfl, onlyCarry_setCarry s _⟩⟩

/-- Settles O12: each is one write of its value into S. -/
theorem swModesWriteS : Obligations.SwModesWriteS :=
  ⟨writesS_of_exec_setS fun _ => rfl, writesS_of_exec_setS fun _ => rfl, writesS_of_exec_setS fun _ => rfl⟩

/-- Settles O13: QW is one write of sum into Q, KS one of the keypad sample. -/
theorem qwAndKsWriteQ : Obligations.QwAndKsWriteQ :=
  ⟨writesQ_of_exec_setQ fun _ => rfl, writesQ_of_exec_setQ fun _ => rfl⟩

end Sys2Proof.Safety

/-! PROOFS. The FIFO chip and the clean ticks: FifoSteps one after another, the one FifoStep that each clean tick takes,
and the counters and bank M along a run of clean ticks. -/

namespace Sys2Proof.Machine

open Sys2Proof.Safety

/-! FifoSteps one after another (R190, R191) -/

theorem Chip.foldl_fifoStep_cycle (vs : List Nibble) (c : Chip) :
    (vs.foldl Chip.fifoStep c).fifoCycle.val = (c.fifoCycle.val + vs.length) % 252 := by
  induction vs generalizing c with
  | nil => exact (Nat.mod_eq_of_lt c.fifoCycle.isLt).symm
  | cons v vs ih =>
    rw [List.foldl_cons, ih, Chip.fifoStep_fifoCycle, Fin.val_add, Fin.val_one, List.length_cons]
    omega

/-- The counter is away from a cell for the 251 steps after it has addressed it. -/
theorem Chip.foldl_fifoStep_cycle_ne {vs : List Nibble} (hpos : 1 ≤ vs.length) (hle : vs.length ≤ 251) (c : Chip) :
    (vs.foldl Chip.fifoStep c).fifoCycle ≠ c.fifoCycle := by
  have hcycle := Chip.foldl_fifoStep_cycle vs c
  have hlt := c.fifoCycle.isLt
  rw [Ne, Fin.ext_iff]
  omega

/-- So the cell that the counter stands at keeps its word over the next 251 steps. -/
theorem Chip.foldl_fifoStep_keeps_cell {vs : List Nibble} (hle : vs.length ≤ 251) (c : Chip) :
    (vs.foldl Chip.fifoStep c).fifoData.get c.fifoCycle = c.fifoData.get c.fifoCycle := by
  induction vs using List.reverseRecOn with
  | nil => rfl
  | append_singleton vs v ih =>
    have haway := Chip.foldl_fifoStep_cycle_ne (by simp) hle c
    rw [List.length_append, List.length_singleton] at hle
    rw [List.foldl_concat, Chip.fifoStep_fifoCycle] at haway
    rw [List.foldl_concat, Chip.fifoStep_get, if_neg haway.symm, ih (by omega)]

/-- The 252nd step addresses the cell that the counter stood at. -/
theorem Chip.foldl_fifoStep_cycle_succ {vs : List Nibble} (hlen : vs.length = 251) (c : Chip) :
    (vs.foldl Chip.fifoStep c).fifoCycle + 1 = c.fifoCycle := by
  have hlt := c.fifoCycle.isLt
  rw [Fin.ext_iff, Fin.val_add, Fin.val_one, Chip.foldl_fifoStep_cycle, hlen]
  omega

/-- After a step the cell that the counter stands at holds the input. -/
theorem Chip.fifoStep_get_cycle (c : Chip) (v : Nibble) : (c.fifoStep v).fifoData.get (c.fifoStep v).fifoCycle = v :=
  (Chip.fifoStep_get _ _ _).trans (if_pos rfl)

/-! The FIFO chip of a CORE -/

/-- The four elements of the FIFO chip (R36-R38) are the same in both. -/
structure Chip.SameFifo (c d : Chip) : Prop where
  data : c.fifoData = d.fifoData
  cycle : c.fifoCycle = d.fifoCycle
  input : c.fifoInput = d.fifoInput
  output : c.fifoOutput = d.fifoOutput

namespace Chip.SameFifo

theorem refl (c : Chip) : c.SameFifo c := ⟨rfl, rfl, rfl, rfl⟩

theorem trans {c d e : Chip} (h : c.SameFifo d) (h' : d.SameFifo e) : c.SameFifo e :=
  ⟨h.data.trans h'.data, h.cycle.trans h'.cycle, h.input.trans h'.input, h.output.trans h'.output⟩

/-- A FifoStep reads the FIFO chip and its input alone (R190). -/
theorem fifoStep {c d : Chip} (h : c.SameFifo d) (v : Nibble) : (c.fifoStep v).SameFifo (d.fifoStep v) := by
  obtain ⟨hdata, hcycle, -, -⟩ := h
  constructor <;> simp [hdata, hcycle]

end Chip.SameFifo

/-! Clean ticks -/

theorem cleanTicks_succ_iff {n : Nat} {s u : State} :
    cleanTicks (n + 1) s = some u ↔ ∃ key mode rest t, s.pending = .tick key mode :: rest ∧ step s = .next t ∧
      t.chip.fault = none ∧ cleanTicks n t = some u := by
  constructor
  · intro h
    unfold cleanTicks at h
    split at h
    · next key mode rest t hp hstep =>
      split at h
      · next hnone => exact ⟨key, mode, rest, t, hp, hstep, hnone, h⟩
      · cases h
    · cases h
  · rintro ⟨key, mode, rest, t, hp, hstep, hnone, h⟩
    simp only [cleanTicks, hp, hstep, if_pos hnone, h]

/-- A run of clean ticks is a run and a run from where that one ends. -/
theorem cleanTicks_add_iff {m n : Nat} {s u : State} :
    cleanTicks (m + n) s = some u ↔ ∃ t, cleanTicks m s = some t ∧ cleanTicks n t = some u := by
  induction m generalizing s with
  | zero => simp [cleanTicks]
  | succ m ih =>
    simp only [Nat.add_right_comm m 1 n, cleanTicks_succ_iff, ih]
    constructor
    · rintro ⟨key, mode, rest, u, hp, hstep, hnone, t, ht, hn⟩
      exact ⟨t, ⟨key, mode, rest, u, hp, hstep, hnone, ht⟩, hn⟩
    · rintro ⟨t, ⟨key, mode, rest, u, hp, hstep, hnone, ht⟩, hn⟩
      exact ⟨key, mode, rest, u, hp, hstep, hnone, t, ht, hn⟩

/-- A clean tick runs to its end: it advances the window, takes one FifoStep, and writes no word of M but M[i], which
under RING is the FIFO's output (R119, R193). -/
theorem cleanTick_advances {s t : State} (h : cleanTicks 1 s = some t) :
    t.cfg = s.cfg ∧ t.chip.i = s.chip.i + 1 ∧ t.chip.SameFifo (s.chip.fifoStep t.chip.fifoInput) ∧
      (s.cfg.fifoLink = .ring → t.chip.m.get s.chip.i = t.chip.fifoOutput) ∧
      ∀ j, j ≠ s.chip.i → t.chip.m.get j = s.chip.m.get j := by
  obtain ⟨key, mode, rest, u, hp, hstep, hnone, hu⟩ := cleanTicks_succ_iff.1 h
  obtain rfl : u = t := Option.some.inj hu
  cases step_tick_answers hp hstep with
  | stuck r hfault ht =>
    subst ht
    exact nomatch hfault.symm.trans hnone
  | takes flt _ ht =>
    subst ht
    exact nomatch hnone
  | ends f b d _ _ hwindow ht =>
    obtain ⟨-, -, -, -, -, -, hi⟩ := finishTick_registers s.chip f ((s.withPending rest).afterWrites b d)
    obtain ⟨hm, hdata, hcycle, hinput, houtput⟩ := finishTick_fifo s.chip f ((s.withPending rest).afterWrites b d)
    subst ht
    refine ⟨rfl, hi, ⟨bank_ext fun k => ?_, hcycle, rfl, houtput⟩, fun hring => ?_, fun j hj => ?_⟩
    · exact (hdata k).trans (hinput ▸ (Chip.fifoStep_get _ _ _).symm)
    · exact (hm _).trans ((if_pos rfl).trans ((if_pos hring).trans houtput.symm))
    · exact ((hm j).trans (if_neg hj)).trans (hwindow.m j hj)

theorem cleanTicks_cfg {n : Nat} {s t : State} (h : cleanTicks n s = some t) : t.cfg = s.cfg := by
  induction n generalizing t with
  | zero => cases h; rfl
  | succ n ih =>
    obtain ⟨u, hu, hlast⟩ := cleanTicks_add_iff.1 h
    obtain ⟨hcfg, -⟩ := cleanTick_advances hlast
    exact hcfg.trans (ih hu)

theorem cleanTicks_window {n : Nat} {s t : State} (h : cleanTicks n s = some t) :
    t.chip.i.val = (s.chip.i.val + n) % 42 := by
  induction n generalizing t with
  | zero => cases h; exact (Nat.mod_eq_of_lt s.chip.i.isLt).symm
  | succ n ih =>
    obtain ⟨u, hu, hlast⟩ := cleanTicks_add_iff.1 h
    obtain ⟨-, hi, -⟩ := cleanTick_advances hlast
    rw [hi, Fin.val_add, Fin.val_one, ih hu]
    omega

/-- `n` clean ticks take `n` FifoSteps (R193), whatever the rest of the CORE is. -/
theorem cleanTicks_fifoSteps {n : Nat} {s t : State} {c : Chip} (hc : s.chip.SameFifo c)
    (h : cleanTicks n s = some t) :
    ∃ vs : List Nibble, vs.length = n ∧ t.chip.SameFifo (vs.foldl Chip.fifoStep c) := by
  induction n generalizing t with
  | zero => cases h; exact ⟨[], rfl, hc⟩
  | succ n ih =>
    obtain ⟨u, hu, hlast⟩ := cleanTicks_add_iff.1 h
    obtain ⟨vs, hlen, hfifo⟩ := ih hu
    obtain ⟨-, -, hstep, -⟩ := cleanTick_advances hlast
    refine ⟨vs ++ [t.chip.fifoInput], by simp [hlen], ?_⟩
    rw [List.foldl_concat]
    exact hstep.trans (hfifo.fifoStep _)

theorem cleanTicks_fifoCycle {n : Nat} {s t : State} (h : cleanTicks n s = some t) :
    t.chip.fifoCycle.val = (s.chip.fifoCycle.val + n) % 252 := by
  obtain ⟨vs, hlen, hfifo⟩ := cleanTicks_fifoSteps (.refl s.chip) h
  rw [hfifo.cycle, Chip.foldl_fifoStep_cycle, hlen]

/-- A word of M that the window has just left is as it is for the 41 ticks until the window is back. -/
theorem cleanTicks_keep_m {n : Nat} {s t : State} {j : Fin 42} (hi : s.chip.i = j + 1) (hn : n ≤ 41)
    (h : cleanTicks n s = some t) : t.chip.m.get j = s.chip.m.get j := by
  induction n generalizing t with
  | zero => cases h; rfl
  | succ n ih =>
    obtain ⟨u, hu, hlast⟩ := cleanTicks_add_iff.1 h
    obtain ⟨-, -, -, -, hm⟩ := cleanTick_advances hlast
    have haway : j ≠ u.chip.i := by
      rw [Ne, Fin.ext_iff, cleanTicks_window hu, hi, Fin.val_add, Fin.val_one]
      omega
    exact (hm j haway).trans (ih (by omega) hu)

end Sys2Proof.Machine

/-! PROOFS. The FIFO chip: one step, its delay, the loop that bank M and it form under RING, and the two counters. -/

namespace Sys2Proof.Safety

open Sys2Proof.Machine

/-- Settles O37: the step's four writes. -/
theorem fifoStepWritesOneCell : Obligations.FifoStepWritesOneCell := fun c v =>
  ⟨rfl, Fin.val_add _ _, rfl, c.fifoStep_get_cycle v, fun k hk => (c.fifoStep_get v k).trans (if_neg hk), rfl⟩

/-- Settles O38: for 251 steps the counter is away from the cell, which keeps v, and the 252nd is back at it. -/
theorem fifoDelaysBy252 : Obligations.FifoDelaysBy252 := by
  intro c v x between hlen
  have hkept {vs : List Nibble} (hle : vs.length ≤ 251) :
      (vs.foldl Chip.fifoStep (c.fifoStep v)).fifoData.get (c.fifoStep v).fifoCycle = v :=
    (Chip.foldl_fifoStep_keeps_cell hle _).trans (c.fifoStep_get_cycle v)
  refine ⟨?_, fun n hpos hle => ?_⟩
  · rw [Chip.fifoStep_fifoOutput, Chip.foldl_fifoStep_cycle_succ hlen, hkept hlen.le]
  · have htake : (between.take n).length = n := List.length_take_of_le (hlen ▸ hle)
    exact ⟨Chip.foldl_fifoStep_cycle_ne (htake.symm ▸ hpos) (htake.le.trans hle) _, hkept (htake.le.trans hle)⟩

/-- Settles O39: the 252 ticks take 252 FifoSteps, so the last puts v out, and it is at window offset i again since 42
divides 252; the ticks after it write other words of M. -/
theorem ringReturnsValueToM : Obligations.RingReturnsValueToM := by
  intro s t u v k hring hfirst hround hk hafter
  obtain ⟨w, hbetween, hlast⟩ := (cleanTicks_add_iff (m := 251) (n := 1)).1 hround
  obtain ⟨hcfg, hi, hfifo, -⟩ := cleanTick_advances hfirst
  obtain ⟨vs, hlen, hfifos⟩ := cleanTicks_fifoSteps hfifo hbetween
  obtain ⟨-, hilast, hfifoLast, hmlast, -⟩ := cleanTick_advances hlast
  have hback : w.chip.i = s.chip.i := by
    have hlt := s.chip.i.isLt
    rw [Fin.ext_iff, cleanTicks_window hbetween, hi, Fin.val_add, Fin.val_one]
    omega
  have hlink : w.cfg.fifoLink = .ring := by rw [cleanTicks_cfg hbetween, hcfg, hring]
  obtain ⟨hdelay, -⟩ := fifoDelaysBy252 s.chip t.chip.fifoInput u.chip.fifoInput vs hlen
  rw [hback] at hilast hmlast
  calc v.chip.m.get s.chip.i
      = u.chip.m.get s.chip.i := cleanTicks_keep_m hilast hk hafter
    _ = u.chip.fifoOutput := hmlast hlink
    _ = ((vs.foldl Chip.fifoStep (s.chip.fifoStep t.chip.fifoInput)).fifoStep u.chip.fifoInput).fifoOutput :=
        (hfifoLast.trans (hfifos.fifoStep _)).output
    _ = t.chip.fifoInput := hdelay

/-- Settles O40: each clean tick advances both counters by one, and 42 divides 252. -/
theorem countersCountTicks : Obligations.CountersCountTicks := by
  intro n s t h
  have hi := cleanTicks_window h
  have hcycle := cleanTicks_fifoCycle h
  refine ⟨hi, hcycle, fun hreset => ?_, ?_⟩
  · rw [hi, hcycle, hreset]
    simp [Chip.reset]
  · have := s.chip.i.isLt
    have := s.chip.fifoCycle.isLt
    rw [Fin.ext_iff, Fin.ext_iff, hi, hcycle]
    omega

end Sys2Proof.Safety

/-! PROOFS. The display and the mode along ticks: the event and the slot of a clean tick, the events of a run of clean
ticks, and what of a tick reads the mode. -/

namespace Sys2Proof.Machine

open Sys2Proof.Safety

/-! The display along clean ticks -/

/-- A clean tick emits its event and advances the slot at i = 41 and at no other i (R201). -/
theorem cleanTick_display {s t : State} (h : cleanTicks 1 s = some t) :
    (s.chip.i = 41 → eventsIn t.out = [displayEvent s.cfg s.chip t.chip.ak] ∧ t.chip.slot = s.chip.slot + 1) ∧
      (s.chip.i ≠ 41 → eventsIn t.out = [] ∧ t.chip.slot = s.chip.slot) := by
  obtain ⟨key, mode, rest, u, hp, hstep, hnone, hu⟩ := cleanTicks_succ_iff.1 h
  obtain rfl : u = t := Option.some.inj hu
  cases step_tick_answers hp hstep with
  | stuck r hfault ht =>
    subst ht
    exact nomatch hfault.symm.trans hnone
  | takes flt _ ht =>
    subst ht
    exact nomatch hnone
  | ends f b d _ _ _ ht =>
    subst ht
    constructor <;> intro hi
    · obtain ⟨hevents, -, -, hslot⟩ := finishTick_display_at_end hi f ((s.withPending rest).afterWrites b d)
      exact ⟨hevents, hslot⟩
    · obtain ⟨hevents, -, -, hslot⟩ := finishTick_display_before_end hi f ((s.withPending rest).afterWrites b d)
      exact ⟨hevents, hslot⟩

/-- The slot counts the periods that end, modulo 14 (R201). -/
theorem cleanTicks_slot {n : Nat} {s t : State} (h : cleanTicks n s = some t) :
    t.chip.slot.val = (s.chip.slot.val + (s.chip.i.val + n) / 42) % 14 := by
  induction n generalizing t with
  | zero =>
    cases h
    have := s.chip.i.isLt
    have := s.chip.slot.isLt
    omega
  | succ n ih =>
    obtain ⟨u, hu, hlast⟩ := cleanTicks_add_iff.1 h
    obtain ⟨hend, hbefore⟩ := cleanTick_display hlast
    have hwindow := cleanTicks_window hu
    have hslot := ih hu
    by_cases hi : u.chip.i = 41
    · obtain ⟨-, hnext⟩ := hend hi
      rw [hi] at hwindow
      rw [hnext, Fin.val_add, Fin.val_one, hslot]
      omega
    · obtain ⟨-, hsame⟩ := hbefore hi
      rw [Fin.ext_iff] at hi
      rw [hsame, hslot]
      omega

/-- The events of a run of clean ticks and of the operations after it. -/
theorem eventsOf_add {m : Nat} {s t : State} (h : cleanTicks m s = some t) (n : Nat) :
    eventsOf (m + n) s = eventsOf m s ++ eventsOf n t := by
  induction m generalizing s with
  | zero =>
    cases h
    rw [Nat.zero_add]
    rfl
  | succ m ih =>
    obtain ⟨key, mode, rest, u, hp, hstep, -, hu⟩ := cleanTicks_succ_iff.1 h
    rw [Nat.add_right_comm]
    simp only [eventsOf, hp, hstep, ih hu, List.append_assoc]

theorem eventsOf_one {s t : State} (h : cleanTicks 1 s = some t) : eventsOf 1 s = eventsIn t.out := by
  obtain ⟨key, mode, rest, u, hp, hstep, -, hu⟩ := cleanTicks_succ_iff.1 h
  cases hu
  simp only [eventsOf, hp, hstep, List.append_nil]

/-- Clean ticks emit one event for each period that ends, for the slots in their order (R201, R202). -/
theorem cleanTicks_event_indices {n : Nat} {s t : State} (h : cleanTicks n s = some t) :
    (eventsOf n s).map Event.index = (List.range ((s.chip.i.val + n) / 42)).map fun k =>
      displayIndex (Fin.ofNat 14 (s.chip.slot.val + k)) := by
  induction n generalizing t with
  | zero =>
    rw [Nat.add_zero, Nat.div_eq_of_lt s.chip.i.isLt]
    rfl
  | succ n ih =>
    obtain ⟨u, hu, hlast⟩ := cleanTicks_add_iff.1 h
    obtain ⟨hend, hbefore⟩ := cleanTick_display hlast
    have hwindow := cleanTicks_window hu
    rw [eventsOf_add hu, eventsOf_one hlast, List.map_append, ih hu]
    by_cases hi : u.chip.i = 41
    · obtain ⟨hevents, -⟩ := hend hi
      have hperiods : (s.chip.i.val + (n + 1)) / 42 = (s.chip.i.val + n) / 42 + 1 := by
        rw [hi] at hwindow
        omega
      have hslot : u.chip.slot = Fin.ofNat 14 (s.chip.slot.val + (s.chip.i.val + n) / 42) :=
        Fin.ext (cleanTicks_slot hu)
      rw [hevents, hperiods, List.range_succ, List.map_append, List.map_singleton, List.map_singleton, ← hslot]
      rfl
    · obtain ⟨hevents, -⟩ := hbefore hi
      have hperiods : (s.chip.i.val + (n + 1)) / 42 = (s.chip.i.val + n) / 42 := by
        rw [Fin.ext_iff] at hi
        omega
      rw [hevents, hperiods, List.map_nil, List.append_nil]

/-! The mode -/

/-- The write-back takes the keypad sample only under KS (R175). -/
theorem writeBack_congr_sample {ops : Micro} {sample sample' : Nibble} (h : .ks ∉ ops ∨ sample = sample') (c : Chip)
    (sum : Nibble) (cout : Bit) : writeBack ops c sum cout sample = writeBack ops c sum cout sample' := by
  rcases h with hks | rfl
  · simp only [writeBack, if_neg hks]
  · rfl

/-- Ticks that differ in the mode alone come to the same state where they fetch no KS or sample the same (R209). -/
theorem closedTick_congr_mode {s : State} {f : Fetched} (hfetch : fetch s = .ok f) {key : Byte}
    {mode mode' : AngularMode} (h : .ks ∉ f.ops ∨ keyQ s.cfg key mode s.chip = keyQ s.cfg key mode' s.chip) :
    closedTick key mode s = closedTick key mode' s := by
  simp only [closedTick, hfetch, writeBack_congr_sample h]

end Sys2Proof.Machine

/-! PROOFS. Display and mode: the index of each slot, the cadence of the events, and how far the mode reaches. -/

namespace Sys2Proof.Safety

open Sys2Proof.Machine

/-- Settles O43: 42 n ticks from window offset 0 end n periods, and the slots count from 0. -/
theorem displayCadence : Obligations.DisplayCadence := by
  intro n s t hreset h
  have hindices := cleanTicks_event_indices h
  have hperiods : (s.chip.i.val + 42 * n) / 42 = n := by simp [hreset, Chip.reset]
  rw [hperiods] at hindices
  simpa [hreset, Chip.reset] using hindices

/-- Settles O46: both steps are the closed form of one tick but for the mode, which passes through the sample alone. -/
theorem modeReachesOnlyKeypadSample : Obligations.ModeReachesOnlyKeypadSample := by
  rintro s s' key mode mode' rest f ⟨hp, -, hfetch⟩ rfl hsample
  calc step s
      = .next (closedTick key mode (s.withPending rest)) := tickIsClosedForm s key mode rest hp
    _ = .next (closedTick key mode' (s.withPending rest)) :=
        congrArg _ (closedTick_congr_mode (s := s.withPending rest) hfetch hsample)
    _ = step (s.withPending (.tick key mode' :: rest)) := (tickIsClosedForm (s.withPending _) key mode' rest rfl).symm

/-- Settles O41: the two branches of idx. -/
theorem displayIndexOfSlot : Obligations.DisplayIndexOfSlot := by
  constructor
  · rintro k (rfl | rfl) <;> rfl
  · exact fun k hk => if_neg hk.not_gt

end Sys2Proof.Safety

/-! PROOFS. Fault entry and the way out of a fault: which ticks record a fault, and what calc_init leaves of the CORE. -/

namespace Sys2Proof.Machine

/-- A tick that records a fault where none was recorded has taken it: a tick that runs to its end records none
(R221, R222). -/
theorem TickAnswers.eq_takeFault {s t : State} (h : TickAnswers s t) (hnone : s.chip.fault = none) {r : FaultRecord}
    (hrecord : t.chip.fault = some r) : ∃ flt, t = s.takeFault flt ∧ r = s.recordOf flt := by
  cases h with
  | stuck r' hfault _ => exact nomatch hfault.symm.trans hnone
  | takes flt _ ht =>
    subst ht
    exact ⟨flt, rfl, (Option.some.inj hrecord).symm⟩
  | ends f b d _ _ _ ht =>
    subst ht
    rw [finishTick_fault] at hrecord
    exact nomatch hnone.symm.trans hrecord

/-- calc_init resets the CORE or, given a program of another length than PROG_LEN, leaves it (R250). -/
theorem hostInit_chip (prog : Option (List Byte)) (s : State) :
    (hostInit prog s).chip = Chip.reset ∨ (hostInit prog s).chip = s.chip := by
  cases prog with
  | none => exact .inl rfl
  | some p =>
    by_cases hlen : p.length = s.cfg.progLen
    · exact .inl (by rw [hostInit_of_length hlen, State.initialised_chip])
    · exact .inr (by rw [hostInit_of_length_ne hlen, State.withOut_chip])

end Sys2Proof.Machine

/-! PROOFS. Exceptions: fault entry, the way out of a fault, and the machine between calls. -/

namespace Sys2Proof.Safety

open Sys2Proof.Machine

/-- Settles O30: the tick took the fault, and fault entry keeps the rest; a tick that follows is stuck. -/
theorem faultEntryIsPrecise : Obligations.FaultEntryIsPrecise := by
  intro s t key mode rest r hp hnone h hrecord
  obtain ⟨flt, rfl, rfl⟩ := (step_tick_answers hp h).eq_takeFault hnone hrecord
  refine ⟨rfl, rfl, rfl, rfl, rfl, rfl, rfl, fun key' mode' rest' hnext => ?_⟩
  obtain ⟨u, hstep, hchip, hprog, hcfg, -⟩ := faultedTickIsStuck.1 _ key' mode' rest' _ hnext hrecord
  exact ⟨u, hstep, hchip, hprog, hcfg⟩

/-- Settles O32: every step but a calc_init leaves a faulted CORE, and a calc_init that does not reset it leaves it
too. -/
theorem onlyInitClearsFault : Obligations.OnlyInitClearsFault := by
  intro s t r hfault h hchanged
  have hleft : t.chip ≠ s.chip := fun hchip => hchanged (hchip ▸ hfault)
  by_cases hinit : ∃ prog rest, s.pending = .init prog :: rest
  · obtain ⟨prog, rest, hp⟩ := hinit
    cases h.symm.trans (step_init hp)
    exact ⟨prog, rest, hp, (hostInit_chip prog (s.withPending rest)).resolve_right hleft⟩
  · have hother : ∀ prog rest, s.pending ≠ .init prog :: rest := fun prog rest hp => hinit ⟨prog, rest, hp⟩
    exact absurd (faultedTickIsStuck.2 s t r hfault h hother) hleft

/-- Settles O55: of the two cases of a step, an empty list of host operations leaves the one that holds the state. -/
theorem noCallHoldsState : Obligations.NoCallHoldsState := by
  intro s hp
  rcases step_cases s with ⟨-, e⟩ | ⟨op, rest, hp', -⟩
  · exact e
  · exact nomatch hp.symm.trans hp'

end Sys2Proof.Safety
